-- ==== Sys2Proof/Word.lean ====
section
/-! DEFINITION. The widths of the 288Lab Range/Servo block and the one form every input to it has. -/

namespace Sys2Proof

/-- A register of the window, and the DATA word of a write: 32 bits (R10, R88). -/
abbrev Word := BitVec 32

/-- A compare field, and a descriptor: 16 bits (R45, R46, R80). -/
abbrev Half := BitVec 16

/-- The capture counter's width, COUNTER_BITS = 24 (R9, R33). -/
abbrev Count := BitVec 24

/-- One byte lane of the window (R62), and an offset or an event code of a descriptor (R80). -/
abbrev Byte := BitVec 8

/-- One input to the block: a 16-bit descriptor with its 32-bit DATA operand (R80).
`data` is the value on port bus_wdata; only class WR reads it (R88, log entry 3). -/
structure Input where
  desc : Half
  data : Word
  deriving DecidableEq, Repr

end Sys2Proof
end

