-- ==== Sys2Proof/Config.lean ====
section
/-! DEFINITION. The parameters of R9: the values the spec fixes, the two decided ones that keep a
named alternative, and the OPEN ones, which are constants without a body. -/

namespace Sys2Proof

/-- EDGE_MODE (R9, R120): which edges qualify; the spec decides POLARITY and keeps BOTH (D11). -/
inductive EdgeMode where
  | polarity
  | both
  deriving DecidableEq, Repr

/-- INTERP_ARITH (R9): the interpolation's arithmetic; the spec decides EXACT and keeps DOUBLE (D21). -/
inductive InterpArith where
  | exact
  | double
  deriving DecidableEq, Repr

/-- The parameters of R9 that a rule of the block or of its host reads. A machine keeps one value of
this record for ever (log entry 5). TRIG_PULSE_TICKS ≥ 1 and CLK_HZ > 0 hold by construction: the
record holds one less than each. -/
structure Params where
  trigPulsePred   : Nat
  edgeMode        : EdgeMode
  interpArith     : InterpArith
  defaultMatch0   : Word
  defaultMatch180 : Word
  clkHzPred       : Nat
  base            : Nat
  echoWaitLimit   : Option Nat
  deriving DecidableEq, Repr

/-- TRIG_PULSE_TICKS (written P), an integer ≥ 1 (R9, R112). -/
def Params.trigPulseTicks (p : Params) : Nat := p.trigPulsePred + 1

/-- CLK_HZ, an integer > 0 (R9, R145). -/
def Params.clkHz (p : Params) : Nat := p.clkHzPred + 1

namespace Config

/-- COUNTER_BITS (R9). -/
def counterBits : Nat := 24

/-- COUNTER_RANGE = 0x1000000, the counter's modulus (R9, R110). -/
def counterRange : Nat := 0x1000000

/-- CNT_MAX = COUNTER_RANGE − 1, the reload value on underflow and the reset value (R9, R33, R110). -/
def cntMax : Count := 0xFFFFFF#24

/-- TURNAROUND_TICKS: ticks between releasing the line and arming capture (R9, R112). -/
def turnaroundTicks : Nat := 1

/-- ANGLE_MIN and ANGLE_MAX, in degrees (R9, R163). -/
def angleMin : Int := 0
def angleMax : Int := 180

/-- CMP_SPLIT: the bit at which a compare value is split (R9, R167). -/
def cmpSplit : Nat := 16

/-- SPEED_OF_SOUND_M_S (R9, R146). -/
def speedOfSound : Nat := 343

/-- TRIG_PULSE_TICKS − 1: OPEN (R9, D9). -/
opaque trigPulsePred : Nat

/-- DEFAULT_MATCH_0: OPEN (R9, R43, D25). -/
opaque defaultMatch0 : Word

/-- DEFAULT_MATCH_180: OPEN (R9, R44, D25). -/
opaque defaultMatch180 : Word

/-- CLK_HZ − 1: OPEN (R9, D8). -/
opaque clkHzPred : Nat

/-- BASE: OPEN (R9, R60, D6). -/
opaque base : Nat

/-- ENV_LVL at power-on: a free draw of the environment (R42, R230, D31). -/
opaque powerOnLevel : Bool

/-- The values of the consumer's float format but one: OPEN, any type (R147, log entry 9). -/
opaque distFloatOthers : Type

/-- The consumer's float format (R147). Every type that has a value is of this form, so nothing is assumed
of the format: not that a float is a number, nor which floats there are (log entry 9). -/
abbrev DistFloat : Type := Option distFloatOthers

/-- DIST_ROUND: OPEN, a function of its argument alone, from the rationals to the consumer's float format
(R147). -/
opaque distRound : Rat → DistFloat

/-- The machine's parameters: the spec's decided values, and the OPEN ones above.
ECHO_WAIT_LIMIT is OPEN with the default unbounded (R9), which is the value taken here. -/
def params : Params where
  trigPulsePred := trigPulsePred
  edgeMode := .polarity
  interpArith := .exact
  defaultMatch0 := defaultMatch0
  defaultMatch180 := defaultMatch180
  clkHzPred := clkHzPred
  base := base
  echoWaitLimit := none

end Config

end Sys2Proof
end

