-- ==== Sys2Proof/Syntax.lean ====
section
/-! DEFINITION. The block's inputs as syntax: one constructor for each row of the opcode table. -/

namespace Sys2Proof

/-- The 28 inputs of `spec/opcode_table.json`. A write carries its DATA word; nothing else has an
operand (R88). -/
inductive Instr where
  -- class RD (R84): the HOST reads a register
  | rdCtrl
  | rdStatus
  | rdTstart
  | rdTend
  | rdWidth
  | rdCount
  | rdCal0
  | rdCal180
  | rdAngle
  | rdCmp
  | rdCmplo
  | rdCmphi
  -- class WR (R84): the HOST writes a register
  | wrCtrl (data : Word)
  | wrStatus (data : Word)
  | wrTstart (data : Word)
  | wrTend (data : Word)
  | wrWidth (data : Word)
  | wrCount (data : Word)
  | wrCal0 (data : Word)
  | wrCal180 (data : Word)
  | wrAngle (data : Word)
  | wrCmp (data : Word)
  | wrCmplo (data : Word)
  | wrCmphi (data : Word)
  -- class EVT (R86): a step of the CLOCK or of the ECHO agent
  | tick
  | rise
  | fall
  -- class RST (R87): the RESET source
  | reset
  deriving DecidableEq, Repr

end Sys2Proof
end

