-- ==== Sys2Proof/WellFormed.lean ====
section
/-! DEFINITION. Which inputs spell an instruction: the checks of R83 and R90 to R92, one by one,
each read from the rule and not from the decoder. -/

namespace Sys2Proof

/-- Every term of `Instr` is well-formed: its only operand is DATA, whose type fixes its 32 bits (R88). -/
def Instr.wellFormed (_ : Instr) : Bool := true

namespace Input

/-- The descriptor is a HOST access, class RD or WR: bit 15 is 0 (R81). -/
def isAccess (i : Input) : Bool := !i.desc.getLsbD 15

/-- RSV, bits 11:8, is 0 (R83). -/
def reservedZero (i : Input) : Bool := i.desc.extractLsb' 8 4 == 0#4

/-- SZ, bits 13:12, is 2 in an access (R90) and 0 in an event or a reset (R83). -/
def sizeOk (i : Input) : Bool :=
  i.desc.extractLsb' 12 2 == if i.isAccess then 2#2 else 0#2

/-- An access has an offset that is a multiple of 4 (R64). -/
def aligned (i : Input) : Bool := !i.isAccess || i.desc.extractLsb' 0 2 == 0#2

/-- The twelve mapped word offsets of R84. -/
def mappedOffsets : List Byte :=
  [0x00, 0x04, 0x08, 0x0C, 0x10, 0x14, 0x20, 0x24, 0x28, 0x2C, 0x30, 0x34]

/-- An access names a mapped register (R91). -/
def mapped (i : Input) : Bool := !i.isAccess || mappedOffsets.contains (i.desc.extractLsb' 0 8)

/-- An event has an assigned code (R86). -/
def codeAssigned (i : Input) : Bool :=
  i.desc.extractLsb' 14 2 != 2#2 || [0x01#8, 0x02#8, 0x03#8].contains (i.desc.extractLsb' 0 8)

/-- A reset has 0 in its low byte (R92). -/
def rstLowZero (i : Input) : Bool :=
  i.desc.extractLsb' 14 2 != 3#2 || i.desc.extractLsb' 0 8 == 0#8

/-- The input spells an instruction. -/
def wellFormed (i : Input) : Bool :=
  i.reservedZero && i.sizeOk && i.aligned && i.mapped && i.codeAssigned && i.rstLowZero

end Input

end Sys2Proof
end

