-- ==== Sys2Proof/Decode.lean ====
section
/-! DEFINITION. The register map of R84, the decoder of R85, the encoder, and the layouts of an
input as one number and as a stream of bytes. -/

namespace Sys2Proof

/-- The twelve registers of the window (R84). -/
inductive Reg where
  | ctrl | status | tstart | tend | width | count
  | cal0 | cal180 | angle | cmp | cmplo | cmphi
  deriving DecidableEq, Repr

/-- The access rights of R84: read-only ignores writes, write-only reads 0. -/
inductive Access where
  | ro | wo | rw
  deriving DecidableEq, Repr

/-- The reasons of a bus error (R200). -/
inductive BusErrorReason where
  | size
  | align
  | unmapped
  deriving DecidableEq, Repr

/-- A bus error as the model records it: its reason and the offset of the access (R200). -/
structure BusError where
  reason : BusErrorReason
  off    : Byte
  deriving DecidableEq, Repr

/-- Why a descriptor spells no input (R92, R202). -/
inductive Malformed where
  | reservedBits
  | unknownEvent
  deriving DecidableEq, Repr

/-- What a descriptor decodes to (R85): an input to perform, an illegal HOST access (a read or a
write), or nothing the model has a meaning for. -/
inductive Decoded where
  | instr (i : Instr)
  | busError (isRead : Bool) (e : BusError)
  | malformed (m : Malformed)
  deriving DecidableEq, Repr

/-- The reason codes 1, 2 and 3 of R200. -/
def BusErrorReason.code : BusErrorReason → Nat
  | .size => 1
  | .align => 2
  | .unmapped => 3

/-- The registers in the order of R84's table. -/
def Reg.all : List Reg :=
  [.ctrl, .status, .tstart, .tend, .width, .count, .cal0, .cal180, .angle, .cmp, .cmplo, .cmphi]

/-- A register's byte offset in the window (R84). -/
def Reg.off : Reg → Byte
  | .ctrl => 0x00#8
  | .status => 0x04#8
  | .tstart => 0x08#8
  | .tend => 0x0C#8
  | .width => 0x10#8
  | .count => 0x14#8
  | .cal0 => 0x20#8
  | .cal180 => 0x24#8
  | .angle => 0x28#8
  | .cmp => 0x2C#8
  | .cmplo => 0x30#8
  | .cmphi => 0x34#8

/-- A register's access rights (R84). -/
def Reg.access : Reg → Access
  | .ctrl | .angle => .wo
  | .cal0 | .cal180 | .cmp => .rw
  | .status | .tstart | .tend | .width | .count | .cmplo | .cmphi => .ro

/-- The register mapped at an offset, if one is (R84, R91). -/
def Reg.ofOff (off : Byte) : Option Reg := Reg.all.find? fun r => r.off == off

/-- `RD <reg>` (R84). -/
def Reg.rd : Reg → Instr
  | .ctrl => .rdCtrl
  | .status => .rdStatus
  | .tstart => .rdTstart
  | .tend => .rdTend
  | .width => .rdWidth
  | .count => .rdCount
  | .cal0 => .rdCal0
  | .cal180 => .rdCal180
  | .angle => .rdAngle
  | .cmp => .rdCmp
  | .cmplo => .rdCmplo
  | .cmphi => .rdCmphi

/-- `WR <reg>, DATA` (R84). -/
def Reg.wr (data : Word) : Reg → Instr
  | .ctrl => .wrCtrl data
  | .status => .wrStatus data
  | .tstart => .wrTstart data
  | .tend => .wrTend data
  | .width => .wrWidth data
  | .count => .wrCount data
  | .cal0 => .wrCal0 data
  | .cal180 => .wrCal180 data
  | .angle => .wrAngle data
  | .cmp => .wrCmp data
  | .cmplo => .wrCmplo data
  | .cmphi => .wrCmphi data

namespace Input

/-- CLS, bits 15:14 (R80, R81). -/
def cls (i : Input) : BitVec 2 := i.desc.extractLsb' 14 2

/-- SZ, bits 13:12 (R80, R82). -/
def sz (i : Input) : BitVec 2 := i.desc.extractLsb' 12 2

/-- RSV, bits 11:8 (R80, R83). -/
def rsv (i : Input) : BitVec 4 := i.desc.extractLsb' 8 4

/-- OFF or CODE, bits 7:0 (R80). -/
def lo (i : Input) : Byte := i.desc.extractLsb' 0 8

end Input

/-- The event of a code of class EVT (R86). -/
def eventOf (code : Byte) : Option Instr :=
  if code = 0x01#8 then some .tick
  else if code = 0x02#8 then some .rise
  else if code = 0x03#8 then some .fall
  else none

/-- The part of R85 for classes RD and WR: size, then alignment, then mapping (R90, R91, R200). -/
def decodeAccess (isRead : Bool) (i : Input) : Decoded :=
  if i.sz ≠ 2#2 then .busError isRead ⟨.size, i.lo⟩
  else if i.lo.extractLsb' 0 2 ≠ 0#2 then .busError isRead ⟨.align, i.lo⟩
  else match Reg.ofOff i.lo with
    | none => .busError isRead ⟨.unmapped, i.lo⟩
    | some r => .instr (if isRead then r.rd else r.wr i.data)

/-- The part of R85 for class EVT. -/
def decodeEvent (i : Input) : Decoded :=
  if i.sz ≠ 0#2 then .malformed .reservedBits
  else match eventOf i.lo with
    | none => .malformed .unknownEvent
    | some e => .instr e

/-- The part of R85 for class RST. -/
def decodeRst (i : Input) : Decoded :=
  if i.sz ≠ 0#2 ∨ i.lo ≠ 0#8 then .malformed .reservedBits else .instr .reset

/-- Decoding one input, the checks in the order of R85: the first that fails decides. -/
def decode (i : Input) : Decoded :=
  if i.rsv ≠ 0#4 then .malformed .reservedBits
  else if i.cls = 0b00#2 then decodeAccess true i
  else if i.cls = 0b01#2 then decodeAccess false i
  else if i.cls = 0b10#2 then decodeEvent i
  else decodeRst i

/-- A descriptor from its fields (R80). -/
def descriptor (cls sz : BitVec 2) (lo : Byte) : Half := cls ++ sz ++ 0#4 ++ lo

/-- The input `RD <reg>`; DATA is not read (R88) and is written 0 here (log entry 3). -/
def Reg.rdInput (r : Reg) : Input := ⟨descriptor 0b00#2 2#2 r.off, 0⟩

/-- The input `WR <reg>, DATA`. -/
def Reg.wrInput (r : Reg) (data : Word) : Input := ⟨descriptor 0b01#2 2#2 r.off, data⟩

/-- The input of an event code (R86). -/
def evtInput (code : Byte) : Input := ⟨descriptor 0b10#2 0#2 code, 0⟩

/-- The one input of class RST (R87). -/
def rstInput : Input := ⟨descriptor 0b11#2 0#2 0x00#8, 0⟩

/-- The input that spells an instruction, from the tables of R84, R86 and R87. -/
def encode : Instr → Input
  | .rdCtrl => Reg.ctrl.rdInput
  | .rdStatus => Reg.status.rdInput
  | .rdTstart => Reg.tstart.rdInput
  | .rdTend => Reg.tend.rdInput
  | .rdWidth => Reg.width.rdInput
  | .rdCount => Reg.count.rdInput
  | .rdCal0 => Reg.cal0.rdInput
  | .rdCal180 => Reg.cal180.rdInput
  | .rdAngle => Reg.angle.rdInput
  | .rdCmp => Reg.cmp.rdInput
  | .rdCmplo => Reg.cmplo.rdInput
  | .rdCmphi => Reg.cmphi.rdInput
  | .wrCtrl data => Reg.ctrl.wrInput data
  | .wrStatus data => Reg.status.wrInput data
  | .wrTstart data => Reg.tstart.wrInput data
  | .wrTend data => Reg.tend.wrInput data
  | .wrWidth data => Reg.width.wrInput data
  | .wrCount data => Reg.count.wrInput data
  | .wrCal0 data => Reg.cal0.wrInput data
  | .wrCal180 data => Reg.cal180.wrInput data
  | .wrAngle data => Reg.angle.wrInput data
  | .wrCmp data => Reg.cmp.wrInput data
  | .wrCmplo data => Reg.cmplo.wrInput data
  | .wrCmphi data => Reg.cmphi.wrInput data
  | .tick => evtInput 0x01#8
  | .rise => evtInput 0x02#8
  | .fall => evtInput 0x03#8
  | .reset => rstInput

/-! ## Layouts of an input

R94 says only that a DATA word follows the descriptor of a write. As one number the descriptor is bits
15:0 and DATA bits 47:16, and as bytes each word stands least significant byte first: both are a DESIGN
CHOICE (log entry 4). -/

/-- The input whose bits are `w`, cut to `nbits` bits: every bit above them is 0. -/
def Input.ofTableWord (nbits w : Nat) : Input :=
  let v := w % 2 ^ nbits
  ⟨BitVec.ofNat 16 v, BitVec.ofNat 32 (v / 2 ^ 16)⟩

/-- The instruction the decoder reads from a word of the opcode table. -/
def decodeTableWord (nbits w : Nat) : Option Instr :=
  match decode (Input.ofTableWord nbits w) with
  | .instr i => some i
  | .busError _ _ => none
  | .malformed _ => none

/-- CLS alone says whether a DATA word follows the descriptor (R94). -/
def hasData (desc : Half) : Bool := desc.extractLsb' 14 2 == 0b01#2

/-- An input as a stream of bytes: the descriptor, then DATA for class WR and nothing else (R94). -/
def Input.toBytes (i : Input) : List Byte :=
  [i.desc.extractLsb' 0 8, i.desc.extractLsb' 8 8] ++
    if hasData i.desc then
      [i.data.extractLsb' 0 8, i.data.extractLsb' 8 8, i.data.extractLsb' 16 8, i.data.extractLsb' 24 8]
    else []

/-- The first input of a stream of bytes and the rest of the stream; `none` where the stream ends
inside an input. -/
def Input.ofBytes : List Byte → Option (Input × List Byte)
  | b0 :: b1 :: rest =>
    let desc : Half := b1 ++ b0
    if hasData desc then
      match rest with
      | d0 :: d1 :: d2 :: d3 :: rest' => some (⟨desc, d3 ++ d2 ++ d1 ++ d0⟩, rest')
      | _ => none
    else some (⟨desc, 0⟩, rest)
  | _ => none

/-- Decoding the head of a stream of bytes. -/
def decodeBytes (bytes : List Byte) : Option (Decoded × List Byte) :=
  (Input.ofBytes bytes).map fun (i, rest) => (decode i, rest)

end Sys2Proof
end

