-- ==== Sys2Proof/Machine/State.lean ====
section
/-! DEFINITION. The state of the block, its environment and its parameters, and the state after reset. -/

namespace Sys2Proof.Machine

/-- STATE, the PulseState (R34); its encoding 3 is never held, so the type has three values (R144). -/
inductive PulseState where
  | idle
  | rising
  | done
  deriving DecidableEq, Repr

/-- TPHASE, the trigger sequencer's phase (R38); 3 is never held. -/
inductive TPhase where
  | off
  | pulse
  | turn
  deriving DecidableEq, Repr

/-- DIR, the direction of the transducer line: IN = 0, OUT = 1 (R40). -/
inductive Dir where
  | input
  | output
  deriving DecidableEq, Repr

/-- What one step answers on the bus and on the compare output: the read data of a HOST read, the
error recorded by an illegal access, the value of a LoadEvent. Each is there only in the step that
gives it (R17, R168, R200). -/
structure Response where
  rdata   : Option Word
  busErr  : Option BusError
  loaded  : Option Word
  deriving DecidableEq, Repr

/-- Why the machine stops. -/
inductive Fault where
  /-- Raised by `step` alone, when no agent presents an input: nothing advances between inputs (R32).
  Safe: the model stops where the block waits (log entry 2). -/
  | noInput
  deriving DecidableEq, Repr

/-- Why the machine has no meaning for an input. -/
inductive Refusal where
  /-- Answered by an arm of `exec` that has no meaning yet; no arm does. Safe. -/
  | notModelled (mnemonic : String)
  /-- Answered by `step` on a descriptor with a reserved bit set (R92, R202). Safe. -/
  | reservedBits
  /-- Answered by `step` on an unassigned event code (R86, R202). Safe. -/
  | unknownEvent
  deriving DecidableEq, Repr

/-- Everything the spec gives the block (R33 to R46), with the answer of the last step, the
parameters of the machine, and the inputs the agents present next, the first to be taken first. -/
structure State where
  /-- CNT (R33). -/
  cnt : Count
  /-- STATE (R34). -/
  pulse : PulseState
  /-- TSTART (R35). -/
  tstart : Word
  /-- TEND (R36). -/
  tend : Word
  /-- ARMED (R37). -/
  armed : Bool
  /-- TPHASE (R38). -/
  tphase : TPhase
  /-- TCNT (R39). -/
  tcnt : Nat
  /-- DIR (R40). -/
  dir : Dir
  /-- SIG_OUT (R41). -/
  sigOut : Bool
  /-- ENV_LVL (R42), the environment's. -/
  envLvl : Bool
  /-- CAL0 (R43). -/
  cal0 : Word
  /-- CAL180 (R44). -/
  cal180 : Word
  /-- CMPLO (R45). -/
  cmplo : Half
  /-- CMPHI (R46). -/
  cmphi : Half
  /-- Ports bus_rdata, bus_err and cmp_load in the last step (R30). -/
  resp : Response
  /-- The parameters of R9. -/
  params : Params
  /-- The inputs to come, in the one total order of R70. -/
  inputs : List Input
  deriving DecidableEq, Repr

/-- A step with nothing on the bus and no load. -/
def Response.quiet : Response := ⟨none, none, none⟩

/-- The state at power-on with parameters `p` and the line at level `lvl`: every element at the value
of R54 (R230). -/
def State.powerOn (p : Params) (lvl : Bool) : State where
  cnt := Config.cntMax
  pulse := .idle
  tstart := 0
  tend := 0
  armed := false
  tphase := .off
  tcnt := 0
  dir := .input
  sigOut := false
  envLvl := lvl
  cal0 := p.defaultMatch0
  cal180 := p.defaultMatch180
  cmplo := 0
  cmphi := 0
  resp := Response.quiet
  params := p
  inputs := []

/-- The machine right after reset (R54, R230): the OPEN parameters and the level of the line are
free values, and no input is pending. -/
def State.reset : State := State.powerOn Config.params Config.powerOnLevel

end Sys2Proof.Machine
end

