-- ==== Sys2Proof/Machine/Flags.lean ====
section
/-! DEFINITION. The status the block reports: the fields of STATUS and the port done. The block has no
other flag (R51). -/

namespace Sys2Proof.Machine

/-- The encoding of STATE: IDLE = 0, RISING = 1, DONE = 2 (R34). -/
def PulseState.code : PulseState → BitVec 2
  | .idle => 0#2
  | .rising => 1#2
  | .done => 2#2

/-- The encoding of TPHASE: OFF = 0, PULSE = 1, TURN = 2 (R38). -/
def TPhase.code : TPhase → BitVec 2
  | .off => 0#2
  | .pulse => 1#2
  | .turn => 2#2

/-- The encoding of DIR: IN = 0, OUT = 1 (R40). -/
def Dir.code : Dir → BitVec 1
  | .input => 0#1
  | .output => 1#1

/-- STATUS.TBUSY: 1 while a trigger sequence runs (R38). -/
def State.tbusy (s : State) : Bool := s.tphase != .off

/-- The STATUS view: TBUSY, ARMED and STATE in bits 3 to 0, the rest 0 (R47, R126). -/
def State.status (s : State) : Word :=
  (BitVec.ofBool s.tbusy ++ BitVec.ofBool s.armed ++ s.pulse.code).setWidth 32

/-- Port done: 1 exactly while STATE = DONE (R143). -/
def State.doneFlag (s : State) : Bool := s.pulse == .done

end Sys2Proof.Machine
end

