-- ==== Sys2Proof/Machine/Float64.lean ====
section
/-! DEFINITION. The IEEE 754 binary64 arithmetic that R165 names: each operation is computed exactly
and rounded once, to the nearest value with a 53-bit significand, ties to even. Every value R165
meets is 0 or lies between 2⁻⁸ and 2³³ in magnitude, so no exponent bound, infinity or NaN arises. -/

namespace Sys2Proof.Machine

/-- The number `num / 2 ^ scale`. -/
structure F64 where
  num   : Int
  scale : Nat
  deriving DecidableEq, Repr

/-- The integer nearest to `n / d`, the even one where two are as near. -/
def nearestEven (n d : Nat) : Nat :=
  let q := n / d
  let r := n % d
  if 2 * r < d then q
  else if d < 2 * r then q + 1
  else if q % 2 = 0 then q
  else q + 1

/-- The `k` for which `n / d * 2 ^ k` has 53 bits before the point: 2⁵² ≤ n / d * 2 ^ k < 2⁵³. -/
def significandShift (n d : Nat) : Nat :=
  let k := 52 + Nat.log2 d - Nat.log2 n
  if 2 ^ 52 * d ≤ n * 2 ^ k then k else k + 1

namespace F64

/-- The binary64 value nearest to `n / d`. -/
def ofQuot (n : Int) (d : Nat) : F64 :=
  if n = 0 then ⟨0, 0⟩
  else
    let k := significandShift n.natAbs d
    ⟨n.sign * nearestEven (n.natAbs * 2 ^ k) d, k⟩

/-- An integer as a binary64 value. -/
def ofInt (n : Int) : F64 := ofQuot n 1

/-- The rounded sum. -/
def add (a b : F64) : F64 :=
  ofQuot (a.num * 2 ^ b.scale + b.num * 2 ^ a.scale) (2 ^ (a.scale + b.scale))

/-- The rounded product. -/
def mul (a b : F64) : F64 := ofQuot (a.num * b.num) (2 ^ (a.scale + b.scale))

/-- The rounded quotient by a positive integer. -/
def divNat (a : F64) (d : Nat) : F64 := ofQuot a.num (2 ^ a.scale * d)

/-- The number that is held. -/
def val (a : F64) : Rat := (a.num : Rat) / 2 ^ a.scale

/-- Truncation toward zero, to an integer. -/
def trunc (a : F64) : Int := a.num.tdiv (2 ^ a.scale)

end F64

end Sys2Proof.Machine
end

