-- ==== Sys2Proof/Machine/Operands.lean ====
section
/-! DEFINITION. How DATA is read by each writable register (R89), and the clamp of R15. -/

namespace Sys2Proof.Machine

/-- `clamp(x, lo, hi)` over the integers (R15). -/
def clamp (x lo hi : Int) : Int := if x < lo then lo else if hi < x then hi else x

/-- CTRL reads bit 0 of DATA, TRIG, and ignores the others (R48, R89). -/
def trigBit (data : Word) : Bool := data.getLsbD 0

/-- ANGLE reads DATA as a signed number of degrees (R89, R163). -/
def angleOperand (data : Word) : Int := data.toInt

/-- The clamped angle of R163. -/
def clampedAngle (data : Word) : Int := clamp (angleOperand data) Config.angleMin Config.angleMax

/-- The low compare field of a compare value, bits 15:0 (R89, R167). -/
def cmpLow (v : Word) : Half := v.extractLsb' 0 16

/-- The high compare field of a compare value, from bit CMP_SPLIT up (R89, R167). -/
def cmpHigh (v : Word) : Half := v.extractLsb' Config.cmpSplit 16

end Sys2Proof.Machine
end

