-- ==== Sys2Proof/Machine/Interp.lean ====
section
/-! DEFINITION. The two computations of the block: the wrap-safe pulse width and the angle's compare value. -/

namespace Sys2Proof.Machine

/-- PulseWidth in exact integers (R138). -/
def pulseWidth (start stop : Int) : Int :=
  if stop ≤ start then start - stop else (start + Config.counterRange) - stop

/-- Interp_EXACT: the floor of the rational interpolation (R164). -/
def interpExact (m0 m180 d : Int) : Int := (m0 * (180 - d) + m180 * d) / 180

/-- Interp_DOUBLE: the source's expression in binary64, truncated (R165). -/
def interpDouble (m0 m180 d : Int) : Int :=
  let diff := F64.ofInt (m180 - m0)
  let frac := (F64.ofInt d).divNat 180
  let prod := diff.mul frac
  let sum := prod.add (F64.ofInt m0)
  sum.trunc

/-- The interpolation under INTERP_ARITH (R169). -/
def interp : InterpArith → Int → Int → Int → Int
  | .exact => interpExact
  | .double => interpDouble

/-- The target of an angle: clamp the angle, interpolate, clamp to the endpoints (R163, R166, R169). -/
def angleTarget (arith : InterpArith) (cal0 cal180 data : Word) : Int :=
  let m0 : Int := cal0.toNat
  let m180 : Int := cal180.toNat
  clamp (interp arith m0 m180 (clampedAngle data)) (min m0 m180) (max m0 m180)

end Sys2Proof.Machine
end

