-- ==== Sys2Proof/Machine/Ops.lean ====
section
/-! DEFINITION. The operations the meanings share: answering on the bus, reading a register, the
counter, the trigger sequence, the capture, the compare load, the reset, the bus error, and taking
the next input. -/

namespace Sys2Proof.Machine

/-- The outcome of one step. -/
abbrev Result := Host.Outcome State Fault Refusal

/-! ## Answers -/

/-- A read that returns `v`. -/
def Response.read (v : Word) : Response := ⟨some v, none, none⟩

/-- A step that loads the compare value `v`: LoadEvent(v) (R17, R167). -/
def Response.load (v : Word) : Response := ⟨none, none, some v⟩

/-- The error response: a read that errs returns 0 (R201). -/
def Response.error (isRead : Bool) (e : BusError) : Response :=
  ⟨if isRead then some 0 else none, some e, none⟩

/-- The step answers `r`. -/
def State.respond (r : Response) (s : State) : State := { s with resp := r }

/-! ## The register window -/

/-- The value a HOST read of a register returns (R49, R126 to R131, R170 to R178). -/
def State.regView (s : State) : Reg → Word
  | .ctrl => 0
  | .status => s.status
  | .tstart => s.tstart
  | .tend => s.tend
  | .width => BitVec.ofInt 32 (pulseWidth s.tstart.toNat s.tend.toNat)
  | .count => s.cnt.setWidth 32
  | .cal0 => s.cal0
  | .cal180 => s.cal180
  | .angle => 0
  | .cmp => s.cmphi ++ s.cmplo
  | .cmplo => s.cmplo.setWidth 32
  | .cmphi => s.cmphi.setWidth 32

/-- A HOST read of a register: it answers the view and changes nothing else (R67). -/
def State.readRegister (r : Reg) (s : State) : State := s.respond (.read (s.regView r))

/-- A HOST write that the block ignores (R132 to R136, R175, R176). -/
def State.ignoreWrite (s : State) : State := s.respond .quiet

/-- The byte the window would show at a host address, were it mapped at BASE: byte `BASE + off + k`
is bits `8k+7 : 8k` of the register at `off` (R60, R62); `none` outside the mapped registers. -/
def State.windowByte (s : State) (addr : Nat) : Option Byte :=
  if addr < s.params.base then none
  else
    let rel := addr - s.params.base
    if 64 ≤ rel then none
    else (Reg.ofOff (BitVec.ofNat 8 (rel / 4 * 4))).map fun r =>
      (s.regView r).extractLsb' (8 * (rel % 4)) 8

/-! ## The counter and the trigger sequence -/

/-- One count down, with the wrap on underflow (R110). -/
def countDown (c : Count) : Count := if c = 0 then Config.cntMax else c - 1

/-- The counter takes one count. -/
def State.countTick (s : State) : State := { s with cnt := countDown s.cnt }

/-- The trigger sequencer's part of a `TICK` (R112, R114). TCNT is a natural number: R39 gives its
range, and it is never 0 in phase PULSE (R50, log entry 10). -/
def State.advanceSequencer (s : State) : State :=
  match s.tphase with
  | .pulse =>
    if s.tcnt = 1 then { s with tcnt := 0, sigOut := false, dir := .input, tphase := .turn }
    else { s with tcnt := s.tcnt - 1 }
  | .turn => { s with armed := true, tphase := .off }
  | .off => s

/-- `TRIGGER`: start a ranging cycle, whatever the present one (R115, R116). -/
def State.trigger (s : State) : State :=
  { s with
    pulse := .idle
    armed := false
    tphase := .pulse
    tcnt := s.params.trigPulseTicks
    dir := .output
    sigOut := true }

/-! ## The edge detector and the capture -/

/-- The polarity of an edge (R120). -/
inductive Polarity where
  | rising
  | falling
  deriving DecidableEq, Repr

/-- The level of the line after an edge (R118). -/
def Polarity.level : Polarity → Bool
  | .rising => true
  | .falling => false

/-- Whether an edge qualifies in a PulseState, by the formula of R120. In DONE under BOTH the formula says
that it does and the rule's last sentence that none does: the model follows the formula there, a DESIGN CHOICE
with no effect, since `State.capture` ignores every edge in DONE (R122, log entry 15). -/
def qualifies (mode : EdgeMode) (st : PulseState) (pol : Polarity) : Bool :=
  mode == .both || (st == .idle && pol == .rising) || (st == .rising && pol == .falling)

/-- The capture transitions: the timestamp and the PulseState change together (R121). In DONE every
edge is ignored (R122). -/
def State.capture (pol : Polarity) (s : State) : State :=
  match s.pulse with
  | .idle =>
    if qualifies s.params.edgeMode .idle pol then
      { s with tstart := s.cnt.setWidth 32, pulse := .rising }
    else s
  | .rising =>
    if qualifies s.params.edgeMode .rising pol then
      { s with tend := s.cnt.setWidth 32, pulse := .done }
    else s
  | .done => s

/-- The sensor drives the line to the level of `pol`. A level the line already has is no edge (R118);
an edge reaches the capture only while ARMED, and leaves nothing pending otherwise (R119). -/
def State.edge (pol : Polarity) (s : State) : State :=
  if s.envLvl = pol.level then s
  else
    let t := { s with envLvl := pol.level }
    if s.armed then t.capture pol else t

/-! ## The compare load and the reset -/

/-- Load(v): both compare fields in one step, with LoadEvent(v) (R167, R168). -/
def State.load (v : Word) (s : State) : State :=
  { s with cmplo := cmpLow v, cmphi := cmpHigh v, resp := .load v }

/-- Every block element takes its reset value (R54, R207). ENV_LVL is not the block's and stays; so
do the parameters and the inputs to come. -/
def State.resetBlock (s : State) : State :=
  { State.powerOn s.params s.envLvl with inputs := s.inputs }

/-- A power cycle: a reset with a fresh draw of ENV_LVL (R217). -/
def State.powerCycle (lvl : Bool) (s : State) : State :=
  { State.powerOn s.params lvl with inputs := s.inputs }

/-! ## Errors and inputs -/

/-- Taking a bus error, the block's only exception: the error response, and no change to the block
(R200, R201, R208). There is no handler and no return (R209). -/
def State.raiseBusError (isRead : Bool) (e : BusError) (s : State) : State :=
  s.respond (.error isRead e)

/-- The refusal of a malformed descriptor, by its reason (R202). -/
def refusalOf : Malformed → Refusal
  | .reservedBits => .reservedBits
  | .unknownEvent => .unknownEvent

/-- Taking the next input off the list, if an agent presents one (R11, R70). -/
def State.takeInput (s : State) : Option (Input × State) :=
  match s.inputs with
  | [] => none
  | i :: rest => some (i, { s with inputs := rest })

/-- An input presented before all the others. -/
def State.presentFirst (i : Input) (s : State) : State := { s with inputs := i :: s.inputs }

end Sys2Proof.Machine
end

