-- ==== Sys2Proof/Machine/Events.lean ====
section
/-! DEFINITION. The steps of the CLOCK, the ECHO environment and the RESET source: R114, R124, R125, R207. -/

namespace Sys2Proof.Machine

/-- `TICK`: one counter clock, for the counter and for the trigger sequencer (R114). -/
def execTick (s : State) : Result := .next (s.countTick.advanceSequencer.respond .quiet)

/-- `RISE`: the sensor drives the line to 1 (R124). -/
def execRise (s : State) : Result := .next ((s.edge .rising).respond .quiet)

/-- `FALL`: the sensor drives the line to 0 (R125). -/
def execFall (s : State) : Result := .next ((s.edge .falling).respond .quiet)

/-- `RESET`: every block element takes its reset value; no LoadEvent (R207). -/
def execReset (s : State) : Result := .next (s.resetBlock.respond .quiet)

end Sys2Proof.Machine
end

