-- ==== Sys2Proof/Machine/Ranging.lean ====
section
/-! DEFINITION. The HOST's accesses to the ranging unit: R115 and R126 to R136. -/

namespace Sys2Proof.Machine

/-- `RD CTRL` reads 0 at all times (R48, R131). -/
def execRdCtrl (s : State) : Result := .next (s.readRegister .ctrl)

/-- `RD STATUS` (R126). -/
def execRdStatus (s : State) : Result := .next (s.readRegister .status)

/-- `RD TSTART` (R127). -/
def execRdTstart (s : State) : Result := .next (s.readRegister .tstart)

/-- `RD TEND` (R128). -/
def execRdTend (s : State) : Result := .next (s.readRegister .tend)

/-- `RD WIDTH` (R129). -/
def execRdWidth (s : State) : Result := .next (s.readRegister .width)

/-- `RD COUNT` (R130). -/
def execRdCount (s : State) : Result := .next (s.readRegister .count)

/-- `WR CTRL, DATA`: `TRIGGER` where DATA[0] = 1, else no change (R48, R115). -/
def execWrCtrl (data : Word) (s : State) : Result :=
  .next ((if trigBit data then s.trigger else s).respond .quiet)

/-- `WR STATUS, DATA` is ignored (R132). -/
def execWrStatus (_data : Word) (s : State) : Result := .next s.ignoreWrite

/-- `WR TSTART, DATA` is ignored (R133). -/
def execWrTstart (_data : Word) (s : State) : Result := .next s.ignoreWrite

/-- `WR TEND, DATA` is ignored (R134). -/
def execWrTend (_data : Word) (s : State) : Result := .next s.ignoreWrite

/-- `WR WIDTH, DATA` is ignored (R135). -/
def execWrWidth (_data : Word) (s : State) : Result := .next s.ignoreWrite

/-- `WR COUNT, DATA` is ignored (R136). -/
def execWrCount (_data : Word) (s : State) : Result := .next s.ignoreWrite

end Sys2Proof.Machine
end

