-- ==== Sys2Proof/Machine/Servo.lean ====
section
/-! DEFINITION. The HOST's accesses to the servo unit: R161, R162 and R169 to R178. -/

namespace Sys2Proof.Machine

/-- `RD CAL0` (R177). -/
def execRdCal0 (s : State) : Result := .next (s.readRegister .cal0)

/-- `RD CAL180` (R178). -/
def execRdCal180 (s : State) : Result := .next (s.readRegister .cal180)

/-- `RD ANGLE` reads 0: the angle is not stored (R170). -/
def execRdAngle (s : State) : Result := .next (s.readRegister .angle)

/-- `RD CMP` (R172). -/
def execRdCmp (s : State) : Result := .next (s.readRegister .cmp)

/-- `RD CMPLO` (R173). -/
def execRdCmplo (s : State) : Result := .next (s.readRegister .cmplo)

/-- `RD CMPHI` (R174). -/
def execRdCmphi (s : State) : Result := .next (s.readRegister .cmphi)

/-- `WR CAL0, DATA`: any value; the compare fields are not reloaded (R161, R183). -/
def execWrCal0 (data : Word) (s : State) : Result := .next ({ s with cal0 := data }.respond .quiet)

/-- `WR CAL180, DATA`: any value; the compare fields are not reloaded (R162, R183). -/
def execWrCal180 (data : Word) (s : State) : Result := .next ({ s with cal180 := data }.respond .quiet)

/-- `WR ANGLE, DATA`: interpolate between the endpoints and load (R169). -/
def execWrAngle (data : Word) (s : State) : Result :=
  .next (s.load (BitVec.ofInt 32 (angleTarget s.params.interpArith s.cal0 s.cal180 data)))

/-- `WR CMP, DATA`: load DATA itself, with no clamp to the endpoints (R171). -/
def execWrCmp (data : Word) (s : State) : Result := .next (s.load data)

/-- `WR CMPLO, DATA` is ignored: a field cannot be loaded alone (R175). -/
def execWrCmplo (_data : Word) (s : State) : Result := .next s.ignoreWrite

/-- `WR CMPHI, DATA` is ignored (R176). -/
def execWrCmphi (_data : Word) (s : State) : Result := .next s.ignoreWrite

end Sys2Proof.Machine
end

