-- ==== Sys2Proof/Machine/Dispatch.lean ====
section
/-! DEFINITION. One arm for each input of the opcode table. -/

namespace Sys2Proof.Machine

/-- What performing an input does. -/
def exec (i : Instr) (s : State) : Host.Outcome State Fault Refusal :=
  match i with
  -- class RD
  | .rdCtrl => Sys2Proof.Machine.execRdCtrl s
  | .rdStatus => Sys2Proof.Machine.execRdStatus s
  | .rdTstart => Sys2Proof.Machine.execRdTstart s
  | .rdTend => Sys2Proof.Machine.execRdTend s
  | .rdWidth => Sys2Proof.Machine.execRdWidth s
  | .rdCount => Sys2Proof.Machine.execRdCount s
  | .rdCal0 => Sys2Proof.Machine.execRdCal0 s
  | .rdCal180 => Sys2Proof.Machine.execRdCal180 s
  | .rdAngle => Sys2Proof.Machine.execRdAngle s
  | .rdCmp => Sys2Proof.Machine.execRdCmp s
  | .rdCmplo => Sys2Proof.Machine.execRdCmplo s
  | .rdCmphi => Sys2Proof.Machine.execRdCmphi s
  -- class WR
  | .wrCtrl data => Sys2Proof.Machine.execWrCtrl data s
  | .wrStatus data => Sys2Proof.Machine.execWrStatus data s
  | .wrTstart data => Sys2Proof.Machine.execWrTstart data s
  | .wrTend data => Sys2Proof.Machine.execWrTend data s
  | .wrWidth data => Sys2Proof.Machine.execWrWidth data s
  | .wrCount data => Sys2Proof.Machine.execWrCount data s
  | .wrCal0 data => Sys2Proof.Machine.execWrCal0 data s
  | .wrCal180 data => Sys2Proof.Machine.execWrCal180 data s
  | .wrAngle data => Sys2Proof.Machine.execWrAngle data s
  | .wrCmp data => Sys2Proof.Machine.execWrCmp data s
  | .wrCmplo data => Sys2Proof.Machine.execWrCmplo data s
  | .wrCmphi data => Sys2Proof.Machine.execWrCmphi data s
  -- class EVT
  | .tick => Sys2Proof.Machine.execTick s
  | .rise => Sys2Proof.Machine.execRise s
  | .fall => Sys2Proof.Machine.execFall s
  -- class RST
  | .reset => Sys2Proof.Machine.execReset s

end Sys2Proof.Machine
end

