-- ==== Sys2Proof/Machine/Step.lean ====
section
/-! DEFINITION. One step: an agent presents one input, and the block performs, errs or refuses (R218). -/

namespace Sys2Proof.Machine

/-- One input presented to the block: it is decoded (R85), and performed, answered with a bus error,
or refused. -/
def present (i : Input) (s : State) : Host.Outcome State Fault Refusal :=
  match decode i with
  | .instr instr => exec instr s
  | .busError isRead e => .next (s.raiseBusError isRead e)
  | .malformed m => .refused (refusalOf m)

/-- One step: the next input is taken and presented; with no input nothing advances (R32). -/
def step (s : State) : Host.Outcome State Fault Refusal :=
  match s.takeInput with
  | none => .fault .noInput
  | some (i, t) => present i t

/-- The state in which the input with these bits is the next one presented; the inputs that were
pending come after it. -/
def State.withFetchWord (s : State) (nbits w : Nat) : State :=
  s.presentFirst (Input.ofTableWord nbits w)

end Sys2Proof.Machine
end

