-- ==== Sys2Proof/Machine/Distance.lean ====
section
/-! DEFINITION. The reference distance that a consumer of the block applies to a width, over the rationals
(R145 to R147). The block does not compute it (R6). -/

namespace Sys2Proof.Machine

/-- The seconds a width of ticks lasts (R145). -/
def seconds (p : Params) (width : Nat) : Rat := (width : Rat) / (p.clkHz : Rat)

/-- The reference distance in centimetres (R146). -/
def distanceCm (p : Params) (width : Nat) : Rat := (width : Rat) * 17150 / (p.clkHz : Rat)

/-- The float a consumer gets (R147). -/
def distanceFloat (p : Params) (width : Nat) : Config.DistFloat := Config.distRound (distanceCm p width)

end Sys2Proof.Machine
end

