-- ==== Sys2Proof/Machine/HostProgram.lean ====
section
/-! DEFINITION. The HOST's side that the spec fixes: inputs presented in order, the lines of a program and
the pseudo-instructions that stand for fixed inputs (R95, R98, R99), the bounded wait (R96, R203) and the
width sequence (R97). -/

namespace Sys2Proof.Machine

/-- Inputs presented one after the other (R70), up to the first that the block has no meaning for. -/
def presentAll : List Input → State → Host.Outcome State Fault Refusal
  | [], s => .next s
  | i :: rest, s =>
    match present i s with
    | .next t => presentAll rest t
    | .fault f => .fault f
    | .refused r => .refused r

/-- One line of a program (R95) or one pseudo-instruction that stands for fixed inputs (R98, R99). -/
inductive HostLine where
  | rd (r : Reg)
  | wr (r : Reg) (value : Int)
  | tick
  | rise
  | fall
  | reset
  | ticks (n : Nat)
  | trigger
  | setAngle (deg : Int)
  | calNudge (live nudge : Int)
  | calCommit0 (live : Int)
  | calCommit180 (live : Int)
  deriving DecidableEq, Repr

/-- A value of a program line as a DATA word: negative numbers as their two's complement (R95). For a value
that does not fit 32 bits, such as a nudge past either end, the spec gives no word: the model takes it modulo
2³², a DESIGN CHOICE (log entry 14). -/
def dataOf (value : Int) : Word := BitVec.ofInt 32 value

/-- The inputs a line stands for (R95, R98, R99). -/
def HostLine.expand : HostLine → List Input
  | .rd r => [encode r.rd]
  | .wr r value => [encode (r.wr (dataOf value))]
  | .tick => [encode .tick]
  | .rise => [encode .rise]
  | .fall => [encode .fall]
  | .reset => [encode .reset]
  | .ticks n => List.replicate n (encode .tick)
  | .trigger => [encode (.wrCtrl 1)]
  | .setAngle deg => [encode (.wrAngle (dataOf deg))]
  | .calNudge live nudge => [encode (.wrCmp (dataOf (live + nudge)))]
  | .calCommit0 live => [encode (.wrCal0 (dataOf live))]
  | .calCommit180 live => [encode (.wrCal180 (dataOf live))]

/-- The inputs a program stands for, with no other agent's step between them. -/
def expandAll (lines : List HostLine) : List Input := lines.flatMap HostLine.expand

/-- How a HOST program that waits for the echo ends. `polling` is a wait that is still going on when
the schedule given to it ends; the other two are the runs the block has no meaning for. -/
inductive WaitOutcome where
  | ok (s : State)
  | noEcho (s : State)
  | polling (s : State)
  | fault (f : Fault)
  | refused (r : Refusal)
  deriving DecidableEq, Repr

/-- The last read returned STATUS.STATE = DONE (R96). -/
def State.sawDone (s : State) : Bool :=
  match s.resp.rdata with
  | some v => v.extractLsb' 0 2 == 2#2
  | none => false

/-- `WAITDONE limit` after `n` polls that did not see DONE (R96). `gaps` says which inputs of the other
agents come before each poll. Without a limit only DONE ends the wait. -/
def waitDone (limit : Option Nat) : Nat → List (List Input) → State → WaitOutcome
  | _, [], s => .polling s
  | n, gap :: gaps, s =>
    match presentAll (gap ++ [encode .rdStatus]) s with
    | .next t =>
      if t.sawDone then .ok t
      else if limit = some (n + 1) then .noEcho t
      else waitDone limit (n + 1) gaps t
    | .fault f => .fault f
    | .refused r => .refused r

/-- `GETWIDTH limit`: trigger, wait, and read WIDTH where the wait ended with DONE (R97). `last` is what
the other agents do between the last poll and the read; the width is the state's read data. -/
def getWidth (limit : Option Nat) (gaps : List (List Input)) (last : List Input) (s : State) : WaitOutcome :=
  match present (encode (.wrCtrl 1)) s with
  | .next t =>
    match waitDone limit 0 gaps t with
    | .ok u =>
      match presentAll (last ++ [encode .rdWidth]) u with
      | .next v => .ok v
      | .fault f => .fault f
      | .refused r => .refused r
    | .noEcho u => .noEcho u
    | .polling u => .polling u
    | .fault f => .fault f
    | .refused r => .refused r
  | .fault f => .fault f
  | .refused r => .refused r

/-- `WAITDONE` with the limit of the machine's parameters, ECHO_WAIT_LIMIT (R9, R96). -/
def waitDoneDefault (gaps : List (List Input)) (s : State) : WaitOutcome :=
  waitDone s.params.echoWaitLimit 0 gaps s

end Sys2Proof.Machine
end

