-- ==== Sys2Proof/Machine/Ports.lean ====
section
/-! DEFINITION. The ports of R30: the outputs as views of the state, the bus inputs as a descriptor. -/

namespace Sys2Proof.Machine

/-- Port sig_oe: 1 while the block drives the line (R30, R40). -/
def State.sigOePort (s : State) : Bool := s.dir == .output

/-- Port sig_out (R30, R41). -/
def State.sigOutPort (s : State) : Bool := s.sigOut

/-- Port sig_in: the level the sensor drives (R30, R42). -/
def State.sigInPort (s : State) : Bool := s.envLvl

/-- The level on the transducer line (R113). -/
def State.lineLevel (s : State) : Bool :=
  match s.dir with
  | .output => s.sigOut
  | .input => s.envLvl

/-- Port done (R30, R143). -/
def State.donePort (s : State) : Bool := s.doneFlag

/-- Port cmp_lo (R30, R45). -/
def State.cmpLoPort (s : State) : Half := s.cmplo

/-- Port cmp_hi (R30, R46). -/
def State.cmpHiPort (s : State) : Half := s.cmphi

/-- Port cmp_load: asserted for exactly the step of a load (R30, R168). -/
def State.cmpLoadPort (s : State) : Bool := s.resp.loaded.isSome

/-- Port bus_err: the one bit the bus carries of a bus error (R30, R200). -/
def State.busErrPort (s : State) : Bool := s.resp.busErr.isSome

/-- Port bus_rdata, in a step that answers a read (R30). -/
def State.busRdataPort (s : State) : Option Word := s.resp.rdata

/-- The input that a bus request is: ports bus_we, bus_size, bus_off and bus_wdata (R30, R80). -/
def busRequest (we : Bool) (size : BitVec 2) (off : Byte) (wdata : Word) : Input :=
  ⟨descriptor (if we then 0b01#2 else 0b00#2) size off, wdata⟩

/-- The input that a counted edge of port clk is (R30). -/
def clkEdge : Input := encode .tick

/-- The input that an assertion of port rst is (R30). -/
def rstAssert : Input := encode .reset

end Sys2Proof.Machine
end

