-- ==== Sys2Proof/Safety.lean ====
section
/-! DEFINITION. The terms the claims use: the invariant of R50, what an input does to the cycle, and a run
with its refusal mark. -/

namespace Sys2Proof.Machine

/-- R50 (a) to (e), clause by clause; its (f) holds by the types of STATE and TPHASE. -/
abbrev State.Inv (s : State) : Prop :=
  (s.tstart.toNat < 2 ^ 24 ∧ s.tend.toNat < 2 ^ 24) ∧
  (s.dir = .output ↔ s.tphase = .pulse) ∧
  (s.sigOut = true ↔ s.tphase = .pulse) ∧
  (s.armed = true → s.tphase = .off ∧ s.dir = .input) ∧
  ((s.tphase = .pulse → 1 ≤ s.tcnt ∧ s.tcnt ≤ s.params.trigPulseTicks) ∧
    (s.tphase ≠ .pulse → s.tcnt = 0))

/-- Capture stays armed while a cycle is captured: STATE leaves IDLE only while ARMED, and only `TRIGGER`
and `RESET` disarm, which also return STATE to IDLE (R37, R121, R122). -/
abbrev State.CycleArmed (s : State) : Prop := s.pulse ≠ .idle → s.armed = true

/-- The input performs `TRIGGER`: `WR CTRL` with DATA[0] = 1 (R115). -/
def isTrigger (i : Input) : Bool :=
  match decode i with
  | .instr (.wrCtrl data) => data.getLsbD 0
  | _ => false

/-- The input performs `RESET` (R207). -/
def isReset (i : Input) : Bool := decode i == .instr .reset

/-- The input starts a new cycle or resets the block: the two that return STATE to IDLE (R123). -/
def restarts (i : Input) : Bool := isTrigger i || isReset i

/-- The input is a `TICK`. -/
def isTick (i : Input) : Bool := decode i == .instr .tick

/-- The input is a `RISE` or a `FALL`. -/
def isEcho (i : Input) : Bool := decode i == .instr .rise || decode i == .instr .fall

/-- The `TICK`s among some inputs. -/
def tickCount (l : List Input) : Nat := l.countP isTick

/-- A run as R202 has it: the state, and the refusal mark, which once set stays set. A refused input
changes no block state, and the run goes on. -/
structure RunRecord where
  state : State
  mark  : Option Refusal
  deriving DecidableEq, Repr

/-- One more input of a run. -/
def RunRecord.present (r : RunRecord) (i : Input) : RunRecord :=
  match Machine.present i r.state with
  | .next t => ⟨t, r.mark⟩
  | .fault _ => r
  | .refused why => ⟨r.state.respond .quiet, r.mark.or (some why)⟩

/-- A run over some inputs. -/
def RunRecord.presentAll (r : RunRecord) (l : List Input) : RunRecord := l.foldl RunRecord.present r

/-- The run went right so far: no input of it was refused (R202). -/
def RunRecord.clean (r : RunRecord) : Bool := r.mark.isNone

/-- `r` is `x` rounded to nearest, ties to even (R165): no number with a 53-bit significand is nearer to `x`,
and where another on the grid of `r` is as near, the significand of `r` is even. The 2⁵³ of a rounding up to
the next power of two is a significand too. -/
def F64.RoundsTo (x : Rat) (r : F64) : Prop :=
  r.num.natAbs ≤ 2 ^ 53 ∧
  (∀ (m : Int) (j : Nat), m.natAbs ≤ 2 ^ 53 → |x - r.val| ≤ |x - (m : Rat) / 2 ^ j|) ∧
  (∀ m : Int, m ≠ r.num → |x - r.val| = |x - (m : Rat) / 2 ^ r.scale| → r.num % 2 = 0)

/-- The inputs of a wait over its polls: each poll reads STATUS after the other agents' inputs (R96). -/
def pollInputs (gaps : List (List Input)) : List Input := gaps.flatMap fun gap => gap ++ [encode .rdStatus]

/-- The two states agree on the ranging unit, on the line and on the parameters (R2, R33 to R42). -/
abbrev SameRanging (s t : State) : Prop :=
  s.cnt = t.cnt ∧ s.pulse = t.pulse ∧ s.tstart = t.tstart ∧ s.tend = t.tend ∧ s.armed = t.armed ∧
  s.tphase = t.tphase ∧ s.tcnt = t.tcnt ∧ s.dir = t.dir ∧ s.sigOut = t.sigOut ∧ s.envLvl = t.envLvl ∧
  s.params = t.params

/-- The two states agree on the servo unit and on the parameters (R2, R43 to R46). -/
abbrev SameServo (s t : State) : Prop :=
  s.cal0 = t.cal0 ∧ s.cal180 = t.cal180 ∧ s.cmplo = t.cmplo ∧ s.cmphi = t.cmphi ∧ s.params = t.params

end Sys2Proof.Machine
end

