-- ==== Sys2Proof/Certificates/Slice0/Obligations.lean ====
section
/-! DEFINITION. The statements about the block, for the provers. -/

open Sys2Proof Sys2Proof.Machine

/-! ## Encoding -/

/-- R84, R86, R87: some words written out from the tables. That DATA stands in bits 47:16 of the number is the
model's choice (log entry 4). -/
def Obligations.TableWordsDecode : Prop :=
  decodeTableWord 16 0x2004 = some .rdStatus ∧
  decodeTableWord 16 0x2010 = some .rdWidth ∧
  decodeTableWord 16 0x2034 = some .rdCmphi ∧
  decodeTableWord 48 0x000000016000 = some (.wrCtrl 1) ∧
  decodeTableWord 48 0xFFFFFFF66028 = some (.wrAngle 0xFFFFFFF6) ∧
  decodeTableWord 48 0x00030063602C = some (.wrCmp 0x00030063) ∧
  decodeTableWord 16 0x8001 = some .tick ∧
  decodeTableWord 16 0x8002 = some .rise ∧
  decodeTableWord 16 0x8003 = some .fall ∧
  decodeTableWord 16 0xC000 = some .reset ∧
  decodeTableWord 16 0x2018 = none ∧
  decodeTableWord 16 0x8004 = none

/-- R80, R84 to R88, R94: decoding the encoding of any input gives it back, with every DATA value, as a
descriptor with its DATA and as the head of any stream of bytes (the byte order of a stream is log
entry 4's). -/
def Obligations.DecodeOfEncode : Prop :=
  ∀ (i : Instr) (rest : List Byte),
    decode (encode i) = .instr i ∧
    decodeBytes ((encode i).toBytes ++ rest) = some (.instr i, rest)

/-- R84, R86, R87: each input has one descriptor; whatever decodes to it is that word, with its DATA
where a DATA word follows. -/
def Obligations.OneDescriptorPerInput : Prop :=
  ∀ (inp : Input) (i : Instr), decode inp = .instr i →
    inp.desc = (encode i).desc ∧ (hasData inp.desc = true → inp.data = (encode i).data)

/-- R83, R90 to R92: an input decodes to an instruction exactly where it passes every check of
well-formedness. -/
def Obligations.WellFormedInputsDecode : Prop :=
  ∀ inp : Input, (∃ i, decode inp = .instr i) ↔ inp.wellFormed = true

/-- R90, R91, R200, R201: each illegal access ends with its error response, in the order size,
alignment, mapping, and with no other change; a read that errs returns 0. -/
def Obligations.IllegalAccessAnswersBusError : Prop :=
  (∀ (d : Half) (data : Word) (s : State),
    d.getLsbD 15 = false → d.extractLsb' 8 4 = 0#4 →
    let off : Byte := d.extractLsb' 0 8
    let answer (why : BusErrorReason) : Host.Outcome State Fault Refusal :=
      .next { s with resp := ⟨if d.getLsbD 14 then none else some 0, some ⟨why, off⟩, none⟩ }
    (d.extractLsb' 12 2 ≠ 2#2 → present ⟨d, data⟩ s = answer .size) ∧
    (d.extractLsb' 12 2 = 2#2 → d.extractLsb' 0 2 ≠ 0#2 → present ⟨d, data⟩ s = answer .align) ∧
    (d.extractLsb' 12 2 = 2#2 → d.extractLsb' 0 2 = 0#2 → off ∉ Input.mappedOffsets →
      present ⟨d, data⟩ s = answer .unmapped)) ∧
  BusErrorReason.size.code = 1 ∧ BusErrorReason.align.code = 2 ∧ BusErrorReason.unmapped.code = 3

/-- R92: the descriptors that spell no input are refused, each for its reason, and a run that presents one
goes on with the block as it was (what the bus shows then is log entry 1's). -/
def Obligations.MalformedDescriptorRefused : Prop :=
  ∀ (d : Half) (data : Word) (s : State),
    let refuses (why : Refusal) : Prop :=
      present ⟨d, data⟩ s = .refused why ∧
      ((RunRecord.mk s none).present ⟨d, data⟩).state = { s with resp := ⟨none, none, none⟩ }
    (d.extractLsb' 8 4 ≠ 0#4 → refuses .reservedBits) ∧
    (d.extractLsb' 8 4 = 0#4 → d.getLsbD 15 = true → d.extractLsb' 12 2 ≠ 0#2 → refuses .reservedBits) ∧
    (d.extractLsb' 8 4 = 0#4 → d.extractLsb' 14 2 = 2#2 → d.extractLsb' 12 2 = 0#2 →
      d.extractLsb' 0 8 ∉ [0x01#8, 0x02#8, 0x03#8] → refuses .unknownEvent) ∧
    (d.extractLsb' 8 4 = 0#4 → d.extractLsb' 14 2 = 3#2 → d.extractLsb' 12 2 = 0#2 →
      d.extractLsb' 0 8 ≠ 0#8 → refuses .reservedBits)

/-- R202: a refused input changes no block state and sets the run's mark, which stays whatever follows. That
nothing is on the bus after it, and where the mark is held, are the model's (log entry 1). -/
def Obligations.RefusalMarkStays : Prop :=
  ∀ (r : RunRecord) (i : Input) (why : Refusal), Machine.present i r.state = .refused why →
    (why = .reservedBits ∨ why = .unknownEvent) ∧
    (r.present i).state = { r.state with resp := ⟨none, none, none⟩ } ∧
    (r.mark = none → (r.present i).mark = some why) ∧
    ∀ l, ((r.present i).presentAll l).clean = false ∧
      ((r.present i).presentAll l).mark = (r.present i).mark

/-! ## The step -/

/-- R70, R85: a step takes the next input and performs it, answers a bus error, or refuses it. -/
def Obligations.StepRunsDecodedInput : Prop :=
  ∀ (s : State) (inp : Input) (rest : List Input), s.inputs = inp :: rest →
    (∀ i, decode inp = .instr i → step s = exec i { s with inputs := rest }) ∧
    (∀ isRead e, decode inp = .busError isRead e →
      step s = .next { s with
        inputs := rest
        resp := ⟨if isRead then some 0 else none, some e, none⟩ }) ∧
    (∀ m, decode inp = .malformed m → step s = .refused (refusalOf m))

/-- R32 and log entry 2 (the model's choice): the word placed for the next step is the input it
presents, and with no input nothing advances. -/
def Obligations.PlacedWordIsPresented : Prop :=
  (∀ (s : State) (nbits w : Nat),
    step (s.withFetchWord nbits w) = present (Input.ofTableWord nbits w) s) ∧
  ∀ s : State, s.inputs = [] → step s = .fault .noInput

/-- R70: a run of as many steps as inputs presents them in their order, each to the state the one
before it left. -/
def Obligations.RunPresentsInputsInOrder : Prop :=
  ∀ (l rest : List Input) (s : State),
    core.run l.length { s with inputs := l ++ rest } = presentAll l { s with inputs := rest }

/-- R204, R218: every instruction completes in every state, and no presented input faults. -/
def Obligations.EveryInputCompletes : Prop :=
  (∀ (i : Instr) (s : State), ∃ t, exec i s = .next t) ∧
  ∀ (inp : Input) (s : State) (f : Fault), present inp s ≠ .fault f

/-! ## Reads -/

/-- R126: `RD STATUS` gives STATE in bits 1:0, ARMED in bit 2, TBUSY in bit 3 and 0 above, and changes
nothing else. -/
def Obligations.ReadStatusGivesCycleState : Prop :=
  ∀ (s : State) (data : Word),
    decode ⟨0x2004#16, data⟩ = .instr .rdStatus ∧
    ∃ v : Word, exec .rdStatus s = .next { s with resp := ⟨some v, none, none⟩ } ∧
      v.extractLsb' 0 2 = (match s.pulse with | .idle => 0#2 | .rising => 1#2 | .done => 2#2) ∧
      v.getLsbD 2 = s.armed ∧
      (v.getLsbD 3 = true ↔ s.tphase ≠ .off) ∧
      v.extractLsb' 4 28 = 0#28

/-- R127, R128: `RD TSTART` and `RD TEND` return the held latches, whose upper byte reads 0 wherever the
invariant of R50 holds. -/
def Obligations.ReadTimestampsGiveLatches : Prop :=
  ∀ (s : State) (data : Word),
    decode ⟨0x2008#16, data⟩ = .instr .rdTstart ∧
    decode ⟨0x200C#16, data⟩ = .instr .rdTend ∧
    exec .rdTstart s = .next { s with resp := ⟨some s.tstart, none, none⟩ } ∧
    exec .rdTend s = .next { s with resp := ⟨some s.tend, none, none⟩ } ∧
    (s.Inv → s.tstart.extractLsb' 24 8 = 0#8 ∧ s.tend.extractLsb' 24 8 = 0#8)

/-- R129, R138: `RD WIDTH` returns `start − end`, or `start + COUNTER_RANGE − end` where start < end. -/
def Obligations.ReadWidthGivesPulseWidth : Prop :=
  ∀ (s : State) (data : Word), s.tstart.toNat < 2 ^ 24 → s.tend.toNat < 2 ^ 24 →
    decode ⟨0x2010#16, data⟩ = .instr .rdWidth ∧
    ∃ v : Word, exec .rdWidth s = .next { s with resp := ⟨some v, none, none⟩ } ∧
      (v.toNat : Int) =
        if s.tend.toNat ≤ s.tstart.toNat then (s.tstart.toNat : Int) - s.tend.toNat
        else ((s.tstart.toNat : Int) + 0x1000000) - s.tend.toNat

/-- R130: `RD COUNT` returns CNT zero-extended, and a read n `TICK`s later the value less by n modulo 2²⁴. -/
def Obligations.ReadCountGivesCounter : Prop :=
  ∀ (s : State) (data : Word),
    decode ⟨0x2014#16, data⟩ = .instr .rdCount ∧
    ∃ v : Word, exec .rdCount s = .next { s with resp := ⟨some v, none, none⟩ } ∧ v.toNat = s.cnt.toNat ∧
      ∀ n : Nat, ∃ (t : State) (w : Word),
        presentAll (HostLine.ticks n).expand s = .next t ∧
        exec .rdCount t = .next { t with resp := ⟨some w, none, none⟩ } ∧
        (w.toNat : Int) = ((v.toNat : Int) - n) % 0x1000000

/-- R131, R170: the write-only registers CTRL and ANGLE read 0. -/
def Obligations.WriteOnlyRegistersReadZero : Prop :=
  ∀ (s : State) (data : Word),
    decode ⟨0x2000#16, data⟩ = .instr .rdCtrl ∧
    decode ⟨0x2028#16, data⟩ = .instr .rdAngle ∧
    exec .rdCtrl s = .next { s with resp := ⟨some 0x00000000, none, none⟩ } ∧
    exec .rdAngle s = .next { s with resp := ⟨some 0x00000000, none, none⟩ }

/-- R172 to R174: `RD CMP` returns the two compare fields together, `RD CMPLO` and `RD CMPHI` one each,
zero-extended. -/
def Obligations.ReadCompareGivesFields : Prop :=
  ∀ (s : State) (data : Word),
    decode ⟨0x202C#16, data⟩ = .instr .rdCmp ∧
    decode ⟨0x2030#16, data⟩ = .instr .rdCmplo ∧
    decode ⟨0x2034#16, data⟩ = .instr .rdCmphi ∧
    ∃ v lo hi : Word,
      exec .rdCmp s = .next { s with resp := ⟨some v, none, none⟩ } ∧
      exec .rdCmplo s = .next { s with resp := ⟨some lo, none, none⟩ } ∧
      exec .rdCmphi s = .next { s with resp := ⟨some hi, none, none⟩ } ∧
      v.toNat = s.cmphi.toNat * 2 ^ 16 + s.cmplo.toNat ∧
      lo.toNat = s.cmplo.toNat ∧ hi.toNat = s.cmphi.toNat

/-- R177, R178: `RD CAL0` and `RD CAL180` return the endpoints. -/
def Obligations.ReadEndpointsGiveCalibration : Prop :=
  ∀ (s : State) (data : Word),
    decode ⟨0x2020#16, data⟩ = .instr .rdCal0 ∧
    decode ⟨0x2024#16, data⟩ = .instr .rdCal180 ∧
    exec .rdCal0 s = .next { s with resp := ⟨some s.cal0, none, none⟩ } ∧
    exec .rdCal180 s = .next { s with resp := ⟨some s.cal180, none, none⟩ }

/-! ## Writes -/

/-- R132 to R136, R175, R176: a write to a read-only register is ignored. -/
def Obligations.WritesToReadOnlyIgnored : Prop :=
  ∀ (s : State) (data : Word),
    (decode ⟨0x6004#16, data⟩ = .instr (.wrStatus data) ∧
      exec (.wrStatus data) s = .next { s with resp := ⟨none, none, none⟩ }) ∧
    (decode ⟨0x6008#16, data⟩ = .instr (.wrTstart data) ∧
      exec (.wrTstart data) s = .next { s with resp := ⟨none, none, none⟩ }) ∧
    (decode ⟨0x600C#16, data⟩ = .instr (.wrTend data) ∧
      exec (.wrTend data) s = .next { s with resp := ⟨none, none, none⟩ }) ∧
    (decode ⟨0x6010#16, data⟩ = .instr (.wrWidth data) ∧
      exec (.wrWidth data) s = .next { s with resp := ⟨none, none, none⟩ }) ∧
    (decode ⟨0x6014#16, data⟩ = .instr (.wrCount data) ∧
      exec (.wrCount data) s = .next { s with resp := ⟨none, none, none⟩ }) ∧
    (decode ⟨0x6030#16, data⟩ = .instr (.wrCmplo data) ∧
      exec (.wrCmplo data) s = .next { s with resp := ⟨none, none, none⟩ }) ∧
    (decode ⟨0x6034#16, data⟩ = .instr (.wrCmphi data) ∧
      exec (.wrCmphi data) s = .next { s with resp := ⟨none, none, none⟩ })

/-- R115 to R117: `WR CTRL` with DATA[0] = 1 starts a cycle from any state, keeping the counter and the
timestamps; with DATA[0] = 0 it does nothing. -/
def Obligations.TriggerStartsCycle : Prop :=
  ∀ (s : State) (data : Word),
    decode ⟨0x6000#16, data⟩ = .instr (.wrCtrl data) ∧
    (data.getLsbD 0 = true → exec (.wrCtrl data) s = .next { s with
      pulse := .idle
      armed := false
      tphase := .pulse
      tcnt := s.params.trigPulseTicks
      dir := .output
      sigOut := true
      resp := ⟨none, none, none⟩ }) ∧
    (data.getLsbD 0 = false → exec (.wrCtrl data) s = .next { s with resp := ⟨none, none, none⟩ })

/-- R161, R162, R183: `WR CAL0` and `WR CAL180` store DATA and reload nothing. -/
def Obligations.WriteEndpointsStoresWithoutReload : Prop :=
  ∀ (s : State) (data : Word),
    decode ⟨0x6020#16, data⟩ = .instr (.wrCal0 data) ∧
    decode ⟨0x6024#16, data⟩ = .instr (.wrCal180 data) ∧
    exec (.wrCal0 data) s = .next { s with cal0 := data, resp := ⟨none, none, none⟩ } ∧
    exec (.wrCal180 data) s = .next { s with cal180 := data, resp := ⟨none, none, none⟩ }

/-- R167, R171: `WR CMP` loads DATA into both compare fields, with no clamp, and emits its LoadEvent. -/
def Obligations.WriteCompareLoadsBothFields : Prop :=
  ∀ (s : State) (data : Word),
    decode ⟨0x602C#16, data⟩ = .instr (.wrCmp data) ∧
    exec (.wrCmp data) s = .next { s with
      cmplo := data.extractLsb' 0 16
      cmphi := data.extractLsb' 16 16
      resp := ⟨none, none, some data⟩ }

/-- R163, R166, R167, R169: `WR ANGLE` clamps the angle, interpolates under the machine's INTERP_ARITH,
clamps to the endpoints and loads, in every state. -/
def Obligations.AngleWriteLoadsTarget : Prop :=
  ∀ (s : State) (data : Word),
    decode ⟨0x6028#16, data⟩ = .instr (.wrAngle data) ∧
    ∃ v : Word,
      exec (.wrAngle data) s = .next { s with
        cmplo := v.extractLsb' 0 16
        cmphi := v.extractLsb' 16 16
        resp := ⟨none, none, some v⟩ } ∧
      let d : Int := if data.toInt < 0 then 0 else if 180 < data.toInt then 180 else data.toInt
      let m0 : Int := s.cal0.toNat
      let m180 : Int := s.cal180.toNat
      let t0 : Int := match s.params.interpArith with
        | .exact => interpExact m0 m180 d
        | .double => interpDouble m0 m180 d
      (v.toNat : Int) = if t0 < min m0 m180 then min m0 m180 else if max m0 m180 < t0 then max m0 m180 else t0

/-- R163, R164, R166, R169: under INTERP_ARITH = EXACT, `WR ANGLE` loads the floor of the interpolation at
the clamped angle, as it stands. -/
def Obligations.ExactAngleLoadsInterpolation : Prop :=
  ∀ (s : State) (data : Word), s.params.interpArith = .exact →
    ∃ (v : Word) (t : State), exec (.wrAngle data) s = .next t ∧
      t.resp.loaded = some v ∧ t.cmphi ++ t.cmplo = v ∧
      let d : Int := if data.toInt < 0 then 0 else if 180 < data.toInt then 180 else data.toInt
      (v.toNat : Int) = ((s.cal0.toNat : Int) * (180 - d) + (s.cal180.toNat : Int) * d) / 180

/-! ## Events -/

/-- R114: `TICK` counts down and takes one step of the trigger sequence, phase by phase. In phase PULSE
TCNT is at least 1 (R50), so the two clauses of that phase are all there are. -/
def Obligations.TickCountsAndSequences : Prop :=
  ∀ (s : State) (data : Word),
    decode ⟨0x8001#16, data⟩ = .instr .tick ∧
    let c : Count := if s.cnt = 0 then 0xFFFFFF#24 else s.cnt - 1
    (s.tphase = .pulse → s.tcnt = 1 → exec .tick s = .next { s with
      cnt := c
      tcnt := 0
      sigOut := false
      dir := .input
      tphase := .turn
      resp := ⟨none, none, none⟩ }) ∧
    (s.tphase = .pulse → 2 ≤ s.tcnt → exec .tick s = .next { s with
      cnt := c
      tcnt := s.tcnt - 1
      resp := ⟨none, none, none⟩ }) ∧
    (s.tphase = .turn → exec .tick s = .next { s with
      cnt := c
      armed := true
      tphase := .off
      resp := ⟨none, none, none⟩ }) ∧
    (s.tphase = .off → exec .tick s = .next { s with cnt := c, resp := ⟨none, none, none⟩ })

/-- R118 to R122, R124: `RISE` in every state. -/
def Obligations.RiseCapturesQualifyingEdge : Prop :=
  ∀ (s : State) (data : Word),
    decode ⟨0x8002#16, data⟩ = .instr .rise ∧
    (s.envLvl = true → exec .rise s = .next { s with resp := ⟨none, none, none⟩ }) ∧
    (s.envLvl = false → s.armed = false →
      exec .rise s = .next { s with envLvl := true, resp := ⟨none, none, none⟩ }) ∧
    (s.envLvl = false → s.armed = true → s.pulse = .idle →
      exec .rise s = .next { s with
        envLvl := true
        tstart := s.cnt.setWidth 32
        pulse := .rising
        resp := ⟨none, none, none⟩ }) ∧
    (s.envLvl = false → s.armed = true → s.pulse = .rising → s.params.edgeMode = .polarity →
      exec .rise s = .next { s with envLvl := true, resp := ⟨none, none, none⟩ }) ∧
    (s.envLvl = false → s.armed = true → s.pulse = .rising → s.params.edgeMode = .both →
      exec .rise s = .next { s with
        envLvl := true
        tend := s.cnt.setWidth 32
        pulse := .done
        resp := ⟨none, none, none⟩ }) ∧
    (s.envLvl = false → s.armed = true → s.pulse = .done →
      exec .rise s = .next { s with envLvl := true, resp := ⟨none, none, none⟩ })

/-- R118 to R122, R125: `FALL` in every state. -/
def Obligations.FallCapturesQualifyingEdge : Prop :=
  ∀ (s : State) (data : Word),
    decode ⟨0x8003#16, data⟩ = .instr .fall ∧
    (s.envLvl = false → exec .fall s = .next { s with resp := ⟨none, none, none⟩ }) ∧
    (s.envLvl = true → s.armed = false →
      exec .fall s = .next { s with envLvl := false, resp := ⟨none, none, none⟩ }) ∧
    (s.envLvl = true → s.armed = true → s.pulse = .idle → s.params.edgeMode = .polarity →
      exec .fall s = .next { s with envLvl := false, resp := ⟨none, none, none⟩ }) ∧
    (s.envLvl = true → s.armed = true → s.pulse = .idle → s.params.edgeMode = .both →
      exec .fall s = .next { s with
        envLvl := false
        tstart := s.cnt.setWidth 32
        pulse := .rising
        resp := ⟨none, none, none⟩ }) ∧
    (s.envLvl = true → s.armed = true → s.pulse = .rising →
      exec .fall s = .next { s with
        envLvl := false
        tend := s.cnt.setWidth 32
        pulse := .done
        resp := ⟨none, none, none⟩ }) ∧
    (s.envLvl = true → s.armed = true → s.pulse = .done →
      exec .fall s = .next { s with envLvl := false, resp := ⟨none, none, none⟩ })

/-- R207: `RESET` gives every block element its reset value and leaves ENV_LVL; no LoadEvent. -/
def Obligations.ResetRestoresResetValues : Prop :=
  ∀ (s : State) (data : Word),
    decode ⟨0xC000#16, data⟩ = .instr .reset ∧
    exec .reset s = .next
      { cnt := 0xFFFFFF#24, pulse := .idle, tstart := 0, tend := 0, armed := false
        tphase := .off, tcnt := 0, dir := .input, sigOut := false
        cal0 := s.params.defaultMatch0, cal180 := s.params.defaultMatch180, cmplo := 0, cmphi := 0
        envLvl := s.envLvl, params := s.params, inputs := s.inputs, resp := ⟨none, none, none⟩ }

/-- R54, R230: the state after reset, with EDGE_MODE and INTERP_ARITH as the spec decides them. Nothing is
said of the OPEN values. -/
def Obligations.ResetStateHoldsResetValues : Prop :=
  let s := State.reset
  s.cnt = 0xFFFFFF#24 ∧ s.pulse = .idle ∧ s.tstart = 0 ∧ s.tend = 0 ∧ s.armed = false ∧
  s.tphase = .off ∧ s.tcnt = 0 ∧ s.dir = .input ∧ s.sigOut = false ∧
  s.cal0 = s.params.defaultMatch0 ∧ s.cal180 = s.params.defaultMatch180 ∧
  s.cmplo = 0 ∧ s.cmphi = 0 ∧ s.status = 0 ∧ s.donePort = false ∧ s.cmpLoadPort = false ∧
  s.params.edgeMode = .polarity ∧ s.params.interpArith = .exact

/-! ## Invariants and rules of the whole machine -/

/-- R50 at reset, with the clause that STATE leaves IDLE only while ARMED. -/
def Obligations.ResetMeetsInvariant : Prop := State.reset.Inv ∧ State.reset.CycleArmed

/-- R50, and that STATE leaves IDLE only while ARMED: every step keeps them. -/
def Obligations.StepKeepsInvariant : Prop :=
  ∀ s t : State, s.Inv → s.CycleArmed → step s = .next t → t.Inv ∧ t.CycleArmed

/-- R126, R144: wherever the invariant holds, STATUS reads one of five values, never with STATE = 3. -/
def Obligations.StatusReadsFiveValues : Prop :=
  ∀ s : State, s.Inv → s.CycleArmed →
    ∃ v : Word, exec .rdStatus s = .next { s with resp := ⟨some v, none, none⟩ } ∧
      (v = 0x0 ∨ v = 0x4 ∨ v = 0x5 ∨ v = 0x6 ∨ v = 0x8) ∧
      (v = 0x8 ↔ s.tphase ≠ .off)

/-- R123: STATE changes only by the two captures, while ARMED, or to IDLE by `TRIGGER` and `RESET`. -/
def Obligations.PulseStateTransitions : Prop :=
  ∀ (inp : Input) (s t : State), present inp s = .next t →
    (restarts inp = true → t.pulse = .idle) ∧
    (t.pulse ≠ s.pulse →
      (restarts inp = true ∧ t.pulse = .idle) ∨
      (isEcho inp = true ∧ s.armed = true ∧
        ((s.pulse = .idle ∧ t.pulse = .rising ∧ t.tstart = s.cnt.setWidth 32 ∧ t.tend = s.tend) ∨
          (s.pulse = .rising ∧ t.pulse = .done ∧ t.tend = s.cnt.setWidth 32 ∧ t.tstart = s.tstart))))

/-- R33, R35 to R46, R111: each element changes only by the inputs that write it; the parameters and the
inputs to come never change (log entry 5). -/
def Obligations.EachElementHasItsWriters : Prop :=
  ∀ (i : Instr) (s t : State), exec i s = .next t →
    (t.cnt ≠ s.cnt → i = .tick ∨ i = .reset) ∧
    (t.tstart ≠ s.tstart → i = .reset ∨
      ((i = .rise ∨ i = .fall) ∧ s.pulse = .idle ∧ t.pulse = .rising)) ∧
    (t.tend ≠ s.tend → i = .reset ∨
      ((i = .rise ∨ i = .fall) ∧ s.pulse = .rising ∧ t.pulse = .done)) ∧
    (t.armed ≠ s.armed → i = .reset ∨ (i = .tick ∧ s.tphase = .turn) ∨
      ∃ d : Word, i = .wrCtrl d ∧ d.getLsbD 0 = true) ∧
    (t.tphase ≠ s.tphase ∨ t.tcnt ≠ s.tcnt ∨ t.dir ≠ s.dir ∨ t.sigOut ≠ s.sigOut →
      i = .reset ∨ (i = .tick ∧ s.tphase ≠ .off) ∨ ∃ d : Word, i = .wrCtrl d ∧ d.getLsbD 0 = true) ∧
    (t.envLvl ≠ s.envLvl → i = .rise ∨ i = .fall) ∧
    (t.cal0 ≠ s.cal0 → i = .reset ∨ ∃ d, i = .wrCal0 d) ∧
    (t.cal180 ≠ s.cal180 → i = .reset ∨ ∃ d, i = .wrCal180 d) ∧
    (t.cmplo ≠ s.cmplo ∨ t.cmphi ≠ s.cmphi →
      i = .reset ∨ (∃ d, i = .wrAngle d) ∨ ∃ d, i = .wrCmp d) ∧
    t.params = s.params ∧ t.inputs = s.inputs

/-- R168, R241: port cmp_load is asserted in exactly the steps of `WR ANGLE` and `WR CMP`, and in such a
step both compare fields are the halves of the one value that LoadEvent records. -/
def Obligations.LoadStrobeMarksEachLoad : Prop :=
  ∀ (inp : Input) (s t : State), present inp s = .next t →
    (t.cmpLoadPort = true ↔ ∃ d, decode inp = .instr (.wrAngle d) ∨ decode inp = .instr (.wrCmp d)) ∧
    ∀ v : Word, t.resp.loaded = some v →
      t.cmpHiPort.toNat * 2 ^ 16 + t.cmpLoPort.toNat = v.toNat

/-- R143: port done is 1 exactly while STATE = DONE; it rises in the step of the capture of the end and
falls in the step of a `TRIGGER` or `RESET`. -/
def Obligations.DonePortFollowsState : Prop :=
  ∀ (inp : Input) (s t : State), present inp s = .next t →
    (t.donePort = true ↔ t.pulse = .done) ∧
    (s.donePort = false → t.donePort = true → isEcho inp = true ∧ s.pulse = .rising) ∧
    (s.donePort = true → (t.donePort = false ↔ restarts inp = true))

/-- R113: the line is SIG_OUT while the block drives it and ENV_LVL otherwise; in a trigger sequence
ARMED is 0 and no edge is captured. -/
def Obligations.LineAndCaptureInSequence : Prop :=
  ∀ s : State, s.Inv →
    (s.dir = .output → s.lineLevel = s.sigOut ∧ s.lineLevel = true) ∧
    (s.dir = .input → s.lineLevel = s.envLvl) ∧
    (s.tphase ≠ .off → s.armed = false ∧
      ∃ t u, exec .rise s = .next t ∧ exec .fall s = .next u ∧
        t = { s with envLvl := true, resp := ⟨none, none, none⟩ } ∧
        u = { s with envLvl := false, resp := ⟨none, none, none⟩ })

/-- R2: the two units are independent: what an input does to one unit is the same whatever the other
unit holds. -/
def Obligations.UnitsDoNotInterfere : Prop :=
  ∀ (inp : Input) (s s' t t' : State), present inp s = .next t → present inp s' = .next t' →
    (SameRanging s s' → SameRanging t t') ∧ (SameServo s s' → SameServo t t')

/-- R72, R122: after a read of STATE = DONE, every later read of TSTART, TEND and WIDTH gives the values
of that cycle, whatever inputs come between, up to the next `TRIGGER` or `RESET`. -/
def Obligations.ResultStableAfterDone : Prop :=
  ∀ (s s1 : State) (l : List Input), exec .rdStatus s = .next s1 → s1.sawDone = true →
    (∀ i ∈ l, restarts i = false) →
    let t := (RunRecord.presentAll ⟨s1, none⟩ l).state
    t.pulse = .done ∧ (s.armed = true → t.armed = true) ∧
    ∃ w : Word,
      exec .rdTstart t = .next { t with resp := ⟨some s.tstart, none, none⟩ } ∧
      exec .rdTend t = .next { t with resp := ⟨some s.tend, none, none⟩ } ∧
      exec .rdWidth t = .next { t with resp := ⟨some w, none, none⟩ } ∧
      exec .rdWidth s = .next { s with resp := ⟨some w, none, none⟩ }

/-- R112: after a `TRIGGER`, whatever other inputs fall between the ticks, the pulse is driven for
TRIG_PULSE_TICKS ticks, the line is released for one, and capture is armed after exactly
TRIG_PULSE_TICKS + 1 ticks. -/
def Obligations.ArmsAfterPulseAndTurnaround : Prop :=
  ∀ (s s1 : State) (data : Word) (l : List Input), data.getLsbD 0 = true →
    exec (.wrCtrl data) s = .next s1 → (∀ i ∈ l, restarts i = false) →
    let t := (RunRecord.presentAll ⟨s1, none⟩ l).state
    let n := tickCount l
    let p := s.params.trigPulseTicks
    (n < p → t.tphase = .pulse ∧ t.tcnt = p - n ∧ t.dir = .output ∧ t.sigOut = true ∧
      t.armed = false ∧ t.pulse = .idle) ∧
    (n = p → t.tphase = .turn ∧ t.dir = .input ∧ t.sigOut = false ∧ t.armed = false ∧ t.pulse = .idle) ∧
    (p + 1 ≤ n → t.tphase = .off ∧ t.dir = .input ∧ t.sigOut = false ∧ t.armed = true)

/-- R110, R98: `TICK n` takes the counter down by n modulo 2²⁴. -/
def Obligations.CounterRunsModuloRange : Prop :=
  ∀ (s : State) (n : Nat), ∃ t, presentAll (HostLine.ticks n).expand s = .next t ∧
    (t.cnt.toNat : Int) = ((s.cnt.toNat : Int) - n) % 0x1000000

/-- R141: if the two captures of a cycle are k ticks apart, WIDTH then reads k modulo 2²⁴, under both
values of EDGE_MODE. -/
def Obligations.WidthCountsTicksBetweenCaptures : Prop :=
  ∀ (s s1 u : State) (i j : Input) (l : List Input),
    s.pulse = .idle → present i s = .next s1 → s1.pulse = .rising →
    (∀ x ∈ l, restarts x = false) →
    (RunRecord.presentAll ⟨s1, none⟩ l).state.pulse = .rising →
    present j (RunRecord.presentAll ⟨s1, none⟩ l).state = .next u → u.pulse = .done →
    exec .rdWidth u = .next { u with
      resp := ⟨some (BitVec.ofNat 32 (tickCount l % 2 ^ 24)), none, none⟩ }

/-- R142: for captures fewer than 2²⁴ ticks apart, the wrap branch (start < end) is taken exactly where
start is below the number of ticks. -/
def Obligations.WrapBranchIsOneUnderflow : Prop :=
  ∀ (s s1 u : State) (i j : Input) (l : List Input),
    s.pulse = .idle → present i s = .next s1 → s1.pulse = .rising →
    (∀ x ∈ l, restarts x = false) → tickCount l < 2 ^ 24 →
    (RunRecord.presentAll ⟨s1, none⟩ l).state.pulse = .rising →
    present j (RunRecord.presentAll ⟨s1, none⟩ l).state = .next u → u.pulse = .done →
    (u.tstart.toNat < u.tend.toNat ↔ u.tstart.toNat < tickCount l)

/-- R112, R121, R141: a whole ranging cycle. A `TRIGGER` with the line low, TRIG_PULSE_TICKS + 1 ticks or
more with no echo, then an echo pulse `k` ticks long, end in DONE with WIDTH reading k modulo 2²⁴. -/
def Obligations.RangingCycleMeasuresEcho : Prop :=
  ∀ (s : State) (before during : List Input), s.envLvl = false →
    (∀ x ∈ before ++ during, restarts x = false ∧ isEcho x = false) →
    s.params.trigPulseTicks + 1 ≤ tickCount before →
    let t := (RunRecord.presentAll ⟨s, none⟩
      ([encode (.wrCtrl 1)] ++ before ++ [encode .rise] ++ during ++ [encode .fall])).state
    t.pulse = .done ∧
    exec .rdWidth t = .next { t with
      resp := ⟨some (BitVec.ofNat 32 (tickCount during % 2 ^ 24)), none, none⟩ }

/-- R139, R140: for latches below 2²⁴ the width is the 24-bit difference, and lies below 2²⁴. -/
def Obligations.PulseWidthIsModularDifference : Prop :=
  ∀ a b : Word, a.toNat < 2 ^ 24 → b.toNat < 2 ^ 24 →
    pulseWidth a.toNat b.toNat = ((a.toNat : Int) - b.toNat) % 2 ^ 24 ∧
    pulseWidth a.toNat b.toNat = ((a - b).extractLsb' 0 24).toNat ∧
    0 ≤ pulseWidth a.toNat b.toNat ∧ pulseWidth a.toNat b.toNat ≤ 0xFFFFFF ∧
    (a = b → pulseWidth a.toNat b.toNat = 0) ∧
    pulseWidth 0 0xFFFFFF = 1 ∧ pulseWidth 0xFFFFFF 0 = 0xFFFFFF

/-- R206: an edge and a tick in either order: the edge first latches the older count, the tick first the
newer, and both leave the same count. -/
def Obligations.EdgeAndTickInEitherOrder : Prop :=
  ∀ s : State, s.armed = true → s.pulse = .idle → s.envLvl = false →
    ∃ t u, presentAll [encode .rise, encode .tick] s = .next t ∧
      presentAll [encode .tick, encode .rise] s = .next u ∧
      t.tstart = s.cnt.setWidth 32 ∧ u.tstart = (s.cnt - 1#24).setWidth 32 ∧
      t.cnt = u.cnt ∧ t.pulse = .rising ∧ u.pulse = .rising

/-! ## The angle mapping -/

/-- R164: EXACT is the formula, its numerator at most (2³² − 1) · 180, and the floor of the source's
expression over the rationals, the difference signed. -/
def Obligations.ExactInterpolationIsFloor : Prop :=
  ∀ (cal0 cal180 : Word) (d : Int), 0 ≤ d → d ≤ 180 →
    let m0 : Int := cal0.toNat
    let m180 : Int := cal180.toNat
    interpExact m0 m180 d = (m0 * (180 - d) + m180 * d) / 180 ∧
    0 ≤ m0 * (180 - d) + m180 * d ∧ m0 * (180 - d) + m180 * d ≤ (2 ^ 32 - 1) * 180 ∧
    interpExact m0 m180 d = ⌊((m180 : Rat) - m0) * ((d : Rat) / 180) + m0⌋

/-- R165, as log entry 12 reads it: the integer converted, and each quotient, product and sum, is rounded to
nearest even from the exact result on the operands' values, the conversion to an integer truncates toward zero,
DOUBLE is the source's expression over these operations, and R165's example tells the two arithmetics apart. -/
def Obligations.DoubleRoundsToNearestEven : Prop :=
  (∀ n : Int, |(n : Rat)| < 2 ^ 52 → (F64.ofInt n).RoundsTo n) ∧
  (∀ (a : F64) (d : Nat), 0 < d → |a.val / d| < 2 ^ 52 → (a.divNat d).RoundsTo (a.val / d)) ∧
  (∀ a b : F64, |a.val * b.val| < 2 ^ 52 → (a.mul b).RoundsTo (a.val * b.val)) ∧
  (∀ a b : F64, |a.val + b.val| < 2 ^ 52 → (a.add b).RoundsTo (a.val + b.val)) ∧
  (∀ a : F64, a.trunc = if 0 ≤ a.val then ⌊a.val⌋ else ⌈a.val⌉) ∧
  (∀ m0 m180 d : Int, interpDouble m0 m180 d =
    (((F64.ofInt (m180 - m0)).mul ((F64.ofInt d).divNat 180)).add (F64.ofInt m0)).trunc) ∧
  interpExact 0 585 52 = 169 ∧ interpDouble 0 585 52 = 168

/-- R166: the target clamp never changes the value, under both arithmetics, and the target fits 32 bits. -/
def Obligations.TargetClampNeverActs : Prop :=
  ∀ (arith : InterpArith) (cal0 cal180 : Word) (d : Int), 0 ≤ d → d ≤ 180 →
    let m0 : Int := cal0.toNat
    let m180 : Int := cal180.toNat
    let t0 : Int := interp arith m0 m180 d
    clamp t0 (min m0 m180) (max m0 m180) = t0 ∧ min m0 m180 ≤ t0 ∧ t0 ≤ max m0 m180 ∧
    0 ≤ t0 ∧ t0 < 2 ^ 32

/-- R163: an angle below 0 behaves as 0 and one above 180 as 180, in every state. -/
def Obligations.AngleClampedToRange : Prop :=
  ∀ (s : State) (data : Word), ∃ t, exec (.wrAngle data) s = .next t ∧
    (data.toInt < 0 → exec (.wrAngle 0) s = .next t) ∧
    (180 < data.toInt → exec (.wrAngle 180) s = .next t)

/-- R179: `SETANGLE 0` loads CAL0 and `SETANGLE 180` loads CAL180, under both arithmetics. -/
def Obligations.EndpointAnglesLoadEndpoints : Prop :=
  ∀ s : State, ∃ t u, exec (.wrAngle 0) s = .next t ∧ exec (.wrAngle 180) s = .next u ∧
    t.resp.loaded = some s.cal0 ∧ t.cmphi ++ t.cmplo = s.cal0 ∧
    u.resp.loaded = some s.cal180 ∧ u.cmphi ++ u.cmplo = s.cal180

/-- R180: for fixed endpoints the loaded value is monotone in the angle, under both arithmetics: upward
where CAL0 ≤ CAL180 and downward where CAL0 ≥ CAL180. -/
def Obligations.AngleMappingMonotone : Prop :=
  ∀ (s : State) (a b : Word), a.toInt ≤ b.toInt →
    ∃ v w t u, exec (.wrAngle a) s = .next t ∧ exec (.wrAngle b) s = .next u ∧
      t.resp.loaded = some v ∧ u.resp.loaded = some w ∧
      (s.cal0.toNat ≤ s.cal180.toNat → v.toNat ≤ w.toNat) ∧
      (s.cal180.toNat ≤ s.cal0.toNat → w.toNat ≤ v.toNat)

/-- R181: `SETANGLE 90` loads the floor of the arithmetic midpoint, whichever endpoint is larger, under
both arithmetics. -/
def Obligations.MiddleAngleLoadsMidpoint : Prop :=
  ∀ s : State, ∃ v t, exec (.wrAngle 90) s = .next t ∧ t.resp.loaded = some v ∧
    v.toNat = (s.cal0.toNat + s.cal180.toNat) / 2

/-! ## The host's side -/

/-- R96, R97: `WAITDONE` ends with Ok at STATE = DONE and at nothing else: it ends with Ok only in DONE, and
at the first poll that meets DONE it does, where no limit ended it before. `GETWIDTH` reads the width after a
wait that ended with Ok, and reads nothing after NoEcho. -/
def Obligations.WaitEndsOnlyAtDone : Prop :=
  (∀ (limit : Option Nat) (n : Nat) (gaps : List (List Input)) (s t : State),
    waitDone limit n gaps s = .ok t → t.pulse = .done) ∧
  (∀ (limit : Option Nat) (gaps more : List (List Input)) (gap : List Input) (s u t : State),
    waitDone none 0 gaps s = .polling u → (∀ m, limit = some m → gaps.length < m) →
    presentAll (gap ++ [encode .rdStatus]) u = .next t → t.pulse = .done →
    waitDone limit 0 (gaps ++ gap :: more) s = .ok t) ∧
  ∀ (limit : Option Nat) (gaps : List (List Input)) (last : List Input) (s : State),
    (∀ t, getWidth limit gaps last s = .ok t →
      t.resp.rdata = some (BitVec.ofInt 32 (pulseWidth t.tstart.toNat t.tend.toNat)) ∧
      ((∀ i ∈ last, restarts i = false) → t.pulse = .done)) ∧
    ∃ s1, exec (.wrCtrl 1) s = .next s1 ∧
      (∀ u v, waitDone limit 0 gaps s1 = .ok u → presentAll last u = .next v →
        getWidth limit gaps last s = .ok { v with
          resp := ⟨some (BitVec.ofInt 32 (pulseWidth v.tstart.toNat v.tend.toNat)), none, none⟩ }) ∧
      (∀ u, waitDone limit 0 gaps s1 = .noEcho u → getWidth limit gaps last s = .noEcho u)

/-- R96, R203, R239: with no echo, an unbounded `WAITDONE` goes on for as many polls as there are; one with
limit m ends with NoEcho at its m-th poll, in the state those m polls leave, and is still polling after fewer.
A poll itself changes no block state. -/
def Obligations.NoEchoWaitNeverSucceeds : Prop :=
  ∀ (s : State) (gaps : List (List Input)), s.pulse ≠ .done →
    (∀ gap ∈ gaps, ∀ i ∈ gap, isEcho i = false ∧ ∀ m, decode i ≠ .malformed m) →
    ∃ u, presentAll (pollInputs gaps) s = .next u ∧ u.pulse ≠ .done ∧
      waitDone none 0 gaps s = .polling u ∧
      (∀ m, gaps.length < m → waitDone (some m) 0 gaps s = .polling u) ∧
      ∀ m, 1 ≤ m → m ≤ gaps.length →
        ∃ t, presentAll (pollInputs (gaps.take m)) s = .next t ∧ t.pulse ≠ .done ∧
          waitDone (some m) 0 gaps s = .noEcho t ∧
          ((∀ gap ∈ gaps, gap = []) → t = { s with resp := ⟨some s.status, none, none⟩ })

/-- R99: a calibration nudge reapplies the live value without touching the endpoints; a commit stores it
in its endpoint without touching the compare fields. A value outside 32 bits is taken modulo 2³², which is the
model's choice (log entry 14). -/
def Obligations.CalibrationTouchPoints : Prop :=
  ∀ (s : State) (live nudge : Int),
    (∃ t, presentAll (HostLine.calNudge live nudge).expand s = .next t ∧
      t.cmphi ++ t.cmplo = BitVec.ofInt 32 (live + nudge) ∧ t.cal0 = s.cal0 ∧ t.cal180 = s.cal180) ∧
    (∃ t, presentAll (HostLine.calCommit0 live).expand s = .next t ∧
      t.cal0 = BitVec.ofInt 32 live ∧ t.cal180 = s.cal180 ∧ t.cmplo = s.cmplo ∧ t.cmphi = s.cmphi) ∧
    (∃ t, presentAll (HostLine.calCommit180 live).expand s = .next t ∧
      t.cal180 = BitVec.ofInt 32 live ∧ t.cal0 = s.cal0 ∧ t.cmplo = s.cmplo ∧ t.cmphi = s.cmphi)

/-- R62: byte k of a mapped register's word in the window is bits 8k+7 to 8k of what a read of it returns,
and a host address outside the mapped words shows none. -/
def Obligations.WindowBytesAreLittleEndian : Prop :=
  (∀ (s : State) (r : Reg) (k : Nat), k < 4 →
    ∃ v : Word, exec r.rd s = .next { s with resp := ⟨some v, none, none⟩ } ∧
      s.windowByte (s.params.base + r.off.toNat + k) = some (v.extractLsb' (8 * k) 8)) ∧
  ∀ (s : State) (addr : Nat),
    (∀ (r : Reg) (k : Nat), k < 4 → addr ≠ s.params.base + r.off.toNat + k) → s.windowByte addr = none

/-- R145, R146, R148: the reference distance is the source's expression, and a width of CLK_HZ / 1000 ticks
gives exactly 17.15 cm. -/
def Obligations.ReferenceDistanceIsExact : Prop :=
  ∀ (p : Params) (width : Nat),
    seconds p width = (width : Rat) / p.clkHz ∧
    distanceCm p width = (seconds p width * 343 / 2) * 100 ∧
    distanceCm p width = (width : Rat) * 17150 / p.clkHz ∧
    (1000 ∣ p.clkHz → distanceCm p (p.clkHz / 1000) = 1715 / 100)
end

