-- ==== Sys2Proof/Laws/State.lean ====
section
/-! SUPPORT. Each field of the state after each named update. -/

namespace Sys2Proof.Machine

/-! ## `State.respond` -/

@[simp] theorem State.respond_cnt (r : Response) (s : State) : (s.respond r).cnt = s.cnt := rfl
@[simp] theorem State.respond_pulse (r : Response) (s : State) : (s.respond r).pulse = s.pulse := rfl
@[simp] theorem State.respond_tstart (r : Response) (s : State) : (s.respond r).tstart = s.tstart := rfl
@[simp] theorem State.respond_tend (r : Response) (s : State) : (s.respond r).tend = s.tend := rfl
@[simp] theorem State.respond_armed (r : Response) (s : State) : (s.respond r).armed = s.armed := rfl
@[simp] theorem State.respond_tphase (r : Response) (s : State) : (s.respond r).tphase = s.tphase := rfl
@[simp] theorem State.respond_tcnt (r : Response) (s : State) : (s.respond r).tcnt = s.tcnt := rfl
@[simp] theorem State.respond_dir (r : Response) (s : State) : (s.respond r).dir = s.dir := rfl
@[simp] theorem State.respond_sigOut (r : Response) (s : State) : (s.respond r).sigOut = s.sigOut := rfl
@[simp] theorem State.respond_envLvl (r : Response) (s : State) : (s.respond r).envLvl = s.envLvl := rfl
@[simp] theorem State.respond_cal0 (r : Response) (s : State) : (s.respond r).cal0 = s.cal0 := rfl
@[simp] theorem State.respond_cal180 (r : Response) (s : State) : (s.respond r).cal180 = s.cal180 := rfl
@[simp] theorem State.respond_cmplo (r : Response) (s : State) : (s.respond r).cmplo = s.cmplo := rfl
@[simp] theorem State.respond_cmphi (r : Response) (s : State) : (s.respond r).cmphi = s.cmphi := rfl
@[simp] theorem State.respond_resp (r : Response) (s : State) : (s.respond r).resp = r := rfl
@[simp] theorem State.respond_params (r : Response) (s : State) : (s.respond r).params = s.params := rfl
@[simp] theorem State.respond_inputs (r : Response) (s : State) : (s.respond r).inputs = s.inputs := rfl

/-! ## `State.load` -/

@[simp] theorem State.load_cnt (v : Word) (s : State) : (s.load v).cnt = s.cnt := rfl
@[simp] theorem State.load_pulse (v : Word) (s : State) : (s.load v).pulse = s.pulse := rfl
@[simp] theorem State.load_tstart (v : Word) (s : State) : (s.load v).tstart = s.tstart := rfl
@[simp] theorem State.load_tend (v : Word) (s : State) : (s.load v).tend = s.tend := rfl
@[simp] theorem State.load_armed (v : Word) (s : State) : (s.load v).armed = s.armed := rfl
@[simp] theorem State.load_tphase (v : Word) (s : State) : (s.load v).tphase = s.tphase := rfl
@[simp] theorem State.load_tcnt (v : Word) (s : State) : (s.load v).tcnt = s.tcnt := rfl
@[simp] theorem State.load_dir (v : Word) (s : State) : (s.load v).dir = s.dir := rfl
@[simp] theorem State.load_sigOut (v : Word) (s : State) : (s.load v).sigOut = s.sigOut := rfl
@[simp] theorem State.load_envLvl (v : Word) (s : State) : (s.load v).envLvl = s.envLvl := rfl
@[simp] theorem State.load_cal0 (v : Word) (s : State) : (s.load v).cal0 = s.cal0 := rfl
@[simp] theorem State.load_cal180 (v : Word) (s : State) : (s.load v).cal180 = s.cal180 := rfl
@[simp] theorem State.load_cmplo (v : Word) (s : State) : (s.load v).cmplo = cmpLow v := rfl
@[simp] theorem State.load_cmphi (v : Word) (s : State) : (s.load v).cmphi = cmpHigh v := rfl
@[simp] theorem State.load_resp (v : Word) (s : State) : (s.load v).resp = .load v := rfl
@[simp] theorem State.load_params (v : Word) (s : State) : (s.load v).params = s.params := rfl
@[simp] theorem State.load_inputs (v : Word) (s : State) : (s.load v).inputs = s.inputs := rfl

/-! ## `State.trigger` -/

@[simp] theorem State.trigger_cnt (s : State) : s.trigger.cnt = s.cnt := rfl
@[simp] theorem State.trigger_pulse (s : State) : s.trigger.pulse = .idle := rfl
@[simp] theorem State.trigger_tstart (s : State) : s.trigger.tstart = s.tstart := rfl
@[simp] theorem State.trigger_tend (s : State) : s.trigger.tend = s.tend := rfl
@[simp] theorem State.trigger_armed (s : State) : s.trigger.armed = false := rfl
@[simp] theorem State.trigger_tphase (s : State) : s.trigger.tphase = .pulse := rfl
@[simp] theorem State.trigger_tcnt (s : State) : s.trigger.tcnt = s.params.trigPulseTicks := rfl
@[simp] theorem State.trigger_dir (s : State) : s.trigger.dir = .output := rfl
@[simp] theorem State.trigger_sigOut (s : State) : s.trigger.sigOut = true := rfl
@[simp] theorem State.trigger_envLvl (s : State) : s.trigger.envLvl = s.envLvl := rfl
@[simp] theorem State.trigger_cal0 (s : State) : s.trigger.cal0 = s.cal0 := rfl
@[simp] theorem State.trigger_cal180 (s : State) : s.trigger.cal180 = s.cal180 := rfl
@[simp] theorem State.trigger_cmplo (s : State) : s.trigger.cmplo = s.cmplo := rfl
@[simp] theorem State.trigger_cmphi (s : State) : s.trigger.cmphi = s.cmphi := rfl
@[simp] theorem State.trigger_resp (s : State) : s.trigger.resp = s.resp := rfl
@[simp] theorem State.trigger_params (s : State) : s.trigger.params = s.params := rfl
@[simp] theorem State.trigger_inputs (s : State) : s.trigger.inputs = s.inputs := rfl

/-! ## `State.countTick` -/

@[simp] theorem State.countTick_cnt (s : State) : s.countTick.cnt = countDown s.cnt := rfl
@[simp] theorem State.countTick_pulse (s : State) : s.countTick.pulse = s.pulse := rfl
@[simp] theorem State.countTick_tstart (s : State) : s.countTick.tstart = s.tstart := rfl
@[simp] theorem State.countTick_tend (s : State) : s.countTick.tend = s.tend := rfl
@[simp] theorem State.countTick_armed (s : State) : s.countTick.armed = s.armed := rfl
@[simp] theorem State.countTick_tphase (s : State) : s.countTick.tphase = s.tphase := rfl
@[simp] theorem State.countTick_tcnt (s : State) : s.countTick.tcnt = s.tcnt := rfl
@[simp] theorem State.countTick_dir (s : State) : s.countTick.dir = s.dir := rfl
@[simp] theorem State.countTick_sigOut (s : State) : s.countTick.sigOut = s.sigOut := rfl
@[simp] theorem State.countTick_envLvl (s : State) : s.countTick.envLvl = s.envLvl := rfl
@[simp] theorem State.countTick_cal0 (s : State) : s.countTick.cal0 = s.cal0 := rfl
@[simp] theorem State.countTick_cal180 (s : State) : s.countTick.cal180 = s.cal180 := rfl
@[simp] theorem State.countTick_cmplo (s : State) : s.countTick.cmplo = s.cmplo := rfl
@[simp] theorem State.countTick_cmphi (s : State) : s.countTick.cmphi = s.cmphi := rfl
@[simp] theorem State.countTick_resp (s : State) : s.countTick.resp = s.resp := rfl
@[simp] theorem State.countTick_params (s : State) : s.countTick.params = s.params := rfl
@[simp] theorem State.countTick_inputs (s : State) : s.countTick.inputs = s.inputs := rfl

/-! ## `State.resetBlock` -/

@[simp] theorem State.resetBlock_cnt (s : State) : s.resetBlock.cnt = Config.cntMax := rfl
@[simp] theorem State.resetBlock_pulse (s : State) : s.resetBlock.pulse = .idle := rfl
@[simp] theorem State.resetBlock_tstart (s : State) : s.resetBlock.tstart = 0 := rfl
@[simp] theorem State.resetBlock_tend (s : State) : s.resetBlock.tend = 0 := rfl
@[simp] theorem State.resetBlock_armed (s : State) : s.resetBlock.armed = false := rfl
@[simp] theorem State.resetBlock_tphase (s : State) : s.resetBlock.tphase = .off := rfl
@[simp] theorem State.resetBlock_tcnt (s : State) : s.resetBlock.tcnt = 0 := rfl
@[simp] theorem State.resetBlock_dir (s : State) : s.resetBlock.dir = .input := rfl
@[simp] theorem State.resetBlock_sigOut (s : State) : s.resetBlock.sigOut = false := rfl
@[simp] theorem State.resetBlock_envLvl (s : State) : s.resetBlock.envLvl = s.envLvl := rfl
@[simp] theorem State.resetBlock_cal0 (s : State) : s.resetBlock.cal0 = s.params.defaultMatch0 := rfl
@[simp] theorem State.resetBlock_cal180 (s : State) : s.resetBlock.cal180 = s.params.defaultMatch180 := rfl
@[simp] theorem State.resetBlock_cmplo (s : State) : s.resetBlock.cmplo = 0 := rfl
@[simp] theorem State.resetBlock_cmphi (s : State) : s.resetBlock.cmphi = 0 := rfl
@[simp] theorem State.resetBlock_resp (s : State) : s.resetBlock.resp = .quiet := rfl
@[simp] theorem State.resetBlock_params (s : State) : s.resetBlock.params = s.params := rfl
@[simp] theorem State.resetBlock_inputs (s : State) : s.resetBlock.inputs = s.inputs := rfl

/-! ## `State.presentFirst` -/

@[simp] theorem State.presentFirst_cnt (i : Input) (s : State) : (s.presentFirst i).cnt = s.cnt := rfl
@[simp] theorem State.presentFirst_pulse (i : Input) (s : State) : (s.presentFirst i).pulse = s.pulse := rfl
@[simp] theorem State.presentFirst_tstart (i : Input) (s : State) : (s.presentFirst i).tstart = s.tstart := rfl
@[simp] theorem State.presentFirst_tend (i : Input) (s : State) : (s.presentFirst i).tend = s.tend := rfl
@[simp] theorem State.presentFirst_armed (i : Input) (s : State) : (s.presentFirst i).armed = s.armed := rfl
@[simp] theorem State.presentFirst_tphase (i : Input) (s : State) : (s.presentFirst i).tphase = s.tphase := rfl
@[simp] theorem State.presentFirst_tcnt (i : Input) (s : State) : (s.presentFirst i).tcnt = s.tcnt := rfl
@[simp] theorem State.presentFirst_dir (i : Input) (s : State) : (s.presentFirst i).dir = s.dir := rfl
@[simp] theorem State.presentFirst_sigOut (i : Input) (s : State) : (s.presentFirst i).sigOut = s.sigOut := rfl
@[simp] theorem State.presentFirst_envLvl (i : Input) (s : State) : (s.presentFirst i).envLvl = s.envLvl := rfl
@[simp] theorem State.presentFirst_cal0 (i : Input) (s : State) : (s.presentFirst i).cal0 = s.cal0 := rfl
@[simp] theorem State.presentFirst_cal180 (i : Input) (s : State) : (s.presentFirst i).cal180 = s.cal180 := rfl
@[simp] theorem State.presentFirst_cmplo (i : Input) (s : State) : (s.presentFirst i).cmplo = s.cmplo := rfl
@[simp] theorem State.presentFirst_cmphi (i : Input) (s : State) : (s.presentFirst i).cmphi = s.cmphi := rfl
@[simp] theorem State.presentFirst_resp (i : Input) (s : State) : (s.presentFirst i).resp = s.resp := rfl
@[simp] theorem State.presentFirst_params (i : Input) (s : State) : (s.presentFirst i).params = s.params := rfl
@[simp] theorem State.presentFirst_inputs (i : Input) (s : State) : (s.presentFirst i).inputs = i :: s.inputs := rfl

/-! ## The updates that only answer -/

theorem State.readRegister_eq (r : Reg) (s : State) :
    s.readRegister r = s.respond (.read (s.regView r)) := rfl

theorem State.ignoreWrite_eq (s : State) : s.ignoreWrite = s.respond .quiet := rfl

theorem State.raiseBusError_eq (isRead : Bool) (e : BusError) (s : State) :
    s.raiseBusError isRead e = s.respond (.error isRead e) := rfl

@[simp] theorem State.respond_respond (r q : Response) (s : State) :
    (s.respond r).respond q = s.respond q := rfl

end Sys2Proof.Machine
end

