-- ==== Sys2Proof/Laws/Ops.lean ====
section
/-! SUPPORT. What each shared operation can do, said once. -/

namespace Sys2Proof.Machine

/-! ## Operands -/

theorem clamp_mem {x lo hi : Int} (h : lo ≤ hi) : lo ≤ clamp x lo hi ∧ clamp x lo hi ≤ hi := by
  unfold clamp; split <;> [omega; split <;> omega]

theorem clamp_of_mem {x lo hi : Int} (h : lo ≤ x) (h' : x ≤ hi) : clamp x lo hi = x := by
  unfold clamp; split <;> [omega; split <;> omega]

theorem clamp_mono {x y lo hi : Int} (h : x ≤ y) (hl : lo ≤ hi) : clamp x lo hi ≤ clamp y lo hi := by
  unfold clamp; split <;> split <;> [skip; split; split; skip] <;> (try split) <;> omega

theorem clampedAngle_mem (data : Word) : 0 ≤ clampedAngle data ∧ clampedAngle data ≤ 180 :=
  clamp_mem (by decide)

theorem cmpHigh_append_cmpLow (v : Word) : cmpHigh v ++ cmpLow v = v := by
  simp only [cmpHigh, cmpLow, Config.cmpSplit]
  ext i hi
  simp only [BitVec.getElem_append, BitVec.getElem_extractLsb']
  split
  · simp [BitVec.getLsbD_eq_getElem hi]
  · have h : 16 + (i - 16) = i := by omega
    simp [h, BitVec.getLsbD_eq_getElem hi]

/-! ## The counter -/

/-- The wrap on underflow is subtraction modulo 2²⁴. -/
theorem countDown_eq (c : Count) : countDown c = c - 1 := by
  unfold countDown
  split
  · next h => subst h; decide
  · rfl

/-! ## The trigger sequencer -/

/-- One tick of the sequencer: it ends the pulse, counts it down, arms, or does nothing. -/
theorem State.advanceSequencer_cases (s : State) :
    (s.tphase = .pulse ∧ s.tcnt = 1 ∧
      s.advanceSequencer = { s with tcnt := 0, sigOut := false, dir := .input, tphase := .turn }) ∨
    (s.tphase = .pulse ∧ s.tcnt ≠ 1 ∧ s.advanceSequencer = { s with tcnt := s.tcnt - 1 }) ∨
    (s.tphase = .turn ∧ s.advanceSequencer = { s with armed := true, tphase := .off }) ∨
    (s.tphase = .off ∧ s.advanceSequencer = s) := by
  unfold State.advanceSequencer
  cases h : s.tphase
  · simp
  · by_cases h1 : s.tcnt = 1 <;> simp [h1]
  · simp

/-- The sequencer leaves the counter, the capture's state, the line and the parameters, and never disarms. -/
theorem State.advanceSequencer_keeps (s : State) :
    s.advanceSequencer.cnt = s.cnt ∧ s.advanceSequencer.pulse = s.pulse ∧
    s.advanceSequencer.tstart = s.tstart ∧ s.advanceSequencer.tend = s.tend ∧
    s.advanceSequencer.envLvl = s.envLvl ∧ s.advanceSequencer.params = s.params ∧
    (s.armed = true → s.advanceSequencer.armed = true) := by
  rcases s.advanceSequencer_cases with ⟨-, -, h⟩ | ⟨-, -, h⟩ | ⟨-, h⟩ | ⟨-, h⟩ <;> rw [h] <;> simp

/-! ## The edge detector -/

/-- A capture latches the start, latches the end, or does nothing. -/
theorem State.capture_cases (pol : Polarity) (s : State) :
    (s.pulse = .idle ∧ s.capture pol = { s with tstart := s.cnt.setWidth 32, pulse := .rising }) ∨
    (s.pulse = .rising ∧ s.capture pol = { s with tend := s.cnt.setWidth 32, pulse := .done }) ∨
    s.capture pol = s := by
  unfold State.capture
  cases h : s.pulse
  · by_cases hq : qualifies s.params.edgeMode .idle pol <;> simp [hq]
  · by_cases hq : qualifies s.params.edgeMode .rising pol <;> simp [hq]
  · simp

/-- An edge is no edge, moves only the line, or reaches the capture. -/
theorem State.edge_cases (pol : Polarity) (s : State) :
    (s.envLvl = pol.level ∧ s.edge pol = s) ∨
    (s.envLvl ≠ pol.level ∧ s.armed = false ∧ s.edge pol = { s with envLvl := pol.level }) ∨
    (s.envLvl ≠ pol.level ∧ s.armed = true ∧
      s.edge pol = ({ s with envLvl := pol.level } : State).capture pol) := by
  unfold State.edge
  by_cases h : s.envLvl = pol.level
  · simp [h]
  · cases ha : s.armed <;> simp [h]

/-- What an edge can change at all: the line, and with it a timestamp and STATE while ARMED. -/
theorem State.edge_changes (pol : Polarity) (s : State) :
    s.edge pol = s ∨ s.edge pol = { s with envLvl := pol.level } ∨
    (s.armed = true ∧ s.pulse = .idle ∧
      s.edge pol = { s with envLvl := pol.level, tstart := s.cnt.setWidth 32, pulse := .rising }) ∨
    (s.armed = true ∧ s.pulse = .rising ∧
      s.edge pol = { s with envLvl := pol.level, tend := s.cnt.setWidth 32, pulse := .done }) := by
  rcases s.edge_cases pol with ⟨-, h⟩ | ⟨-, -, h⟩ | ⟨-, ha, h⟩
  · exact .inl h
  · exact .inr (.inl h)
  · rw [h]
    rcases State.capture_cases pol { s with envLvl := pol.level } with ⟨hp, hc⟩ | ⟨hp, hc⟩ | hc
    · exact .inr (.inr (.inl ⟨ha, hp, hc⟩))
    · exact .inr (.inr (.inr ⟨ha, hp, hc⟩))
    · exact .inr (.inl hc)

/-- Which edges qualify, spelled out. -/
theorem qualifies_iff (mode : EdgeMode) (st : PulseState) (pol : Polarity) :
    qualifies mode st pol = true ↔
      mode = .both ∨ (st = .idle ∧ pol = .rising) ∨ (st = .rising ∧ pol = .falling) := by
  cases mode <;> cases st <;> cases pol <;> decide

/-! ## STATUS -/

theorem State.status_state (s : State) : s.status.extractLsb' 0 2 = s.pulse.code := by
  unfold State.status
  cases s.tbusy <;> cases s.armed <;> cases s.pulse <;> decide

theorem State.status_armed (s : State) : s.status.getLsbD 2 = s.armed := by
  unfold State.status
  cases s.tbusy <;> cases s.armed <;> cases s.pulse <;> decide

theorem State.status_tbusy (s : State) : s.status.getLsbD 3 = s.tbusy := by
  unfold State.status
  cases s.tbusy <;> cases s.armed <;> cases s.pulse <;> decide

theorem State.status_reserved (s : State) : s.status.extractLsb' 4 28 = 0 := by
  unfold State.status
  cases s.tbusy <;> cases s.armed <;> cases s.pulse <;> decide

theorem State.tbusy_iff (s : State) : s.tbusy = true ↔ s.tphase ≠ .off := by
  unfold State.tbusy; cases s.tphase <;> decide

/-! ## Inputs -/

theorem State.takeInput_nil {s : State} (h : s.inputs = []) : s.takeInput = none := by
  simp [State.takeInput, h]

theorem State.takeInput_cons {s : State} {i : Input} {rest : List Input} (h : s.inputs = i :: rest) :
    s.takeInput = some (i, { s with inputs := rest }) := by
  simp [State.takeInput, h]

theorem State.takeInput_presentFirst (i : Input) (s : State) :
    (s.presentFirst i).takeInput = some (i, s) := rfl

end Sys2Proof.Machine
end

