-- ==== Sys2Proof/Laws/Exec.lean ====
section
/-! SUPPORT. What performing an input can do, in one lemma: every proof over all inputs starts from it. -/

namespace Sys2Proof.Machine

/-- The registers a HOST write does not change. -/
def ignoresWrites : Reg → Bool
  | .status | .tstart | .tend | .width | .count | .cmplo | .cmphi => true
  | .ctrl | .cal0 | .cal180 | .angle | .cmp => false

/-- If performing `i` gives a next state, then it is one of these. -/
theorem exec_cases {i : Instr} {s t : State} (h : exec i s = .next t) :
    (∃ r : Reg, i = r.rd ∧ t = s.respond (.read (s.regView r))) ∨
    (∃ (r : Reg) (data : Word), ignoresWrites r = true ∧ i = r.wr data ∧ t = s.respond .quiet) ∨
    (∃ data : Word, i = .wrCtrl data ∧ trigBit data = false ∧ t = s.respond .quiet) ∨
    (∃ data : Word, i = .wrCtrl data ∧ trigBit data = true ∧ t = s.trigger.respond .quiet) ∨
    (∃ data : Word, i = .wrCal0 data ∧ t = ({ s with cal0 := data } : State).respond .quiet) ∨
    (∃ data : Word, i = .wrCal180 data ∧ t = ({ s with cal180 := data } : State).respond .quiet) ∨
    (∃ data : Word, i = .wrAngle data ∧
      t = s.load (BitVec.ofInt 32 (angleTarget s.params.interpArith s.cal0 s.cal180 data))) ∨
    (∃ data : Word, i = .wrCmp data ∧ t = s.load data) ∨
    (i = .tick ∧ t = s.countTick.advanceSequencer.respond .quiet) ∨
    (∃ pol : Polarity, i = (match pol with | .rising => .rise | .falling => .fall) ∧
      t = (s.edge pol).respond .quiet) ∨
    (i = .reset ∧ t = s.resetBlock.respond .quiet) := by
  have read (r : Reg) (hi : i = r.rd) (ht : s.readRegister r = t) :
      ∃ r : Reg, i = r.rd ∧ t = s.respond (.read (s.regView r)) := ⟨r, hi, ht.symm⟩
  have skip (r : Reg) (data : Word) (hr : ignoresWrites r = true) (hi : i = r.wr data)
      (ht : s.ignoreWrite = t) :
      ∃ (r : Reg) (data : Word), ignoresWrites r = true ∧ i = r.wr data ∧ t = s.respond .quiet :=
    ⟨r, data, hr, hi, ht.symm⟩
  cases i with
  | rdCtrl => exact .inl (read .ctrl rfl (Host.Outcome.next.inj h))
  | rdStatus => exact .inl (read .status rfl (Host.Outcome.next.inj h))
  | rdTstart => exact .inl (read .tstart rfl (Host.Outcome.next.inj h))
  | rdTend => exact .inl (read .tend rfl (Host.Outcome.next.inj h))
  | rdWidth => exact .inl (read .width rfl (Host.Outcome.next.inj h))
  | rdCount => exact .inl (read .count rfl (Host.Outcome.next.inj h))
  | rdCal0 => exact .inl (read .cal0 rfl (Host.Outcome.next.inj h))
  | rdCal180 => exact .inl (read .cal180 rfl (Host.Outcome.next.inj h))
  | rdAngle => exact .inl (read .angle rfl (Host.Outcome.next.inj h))
  | rdCmp => exact .inl (read .cmp rfl (Host.Outcome.next.inj h))
  | rdCmplo => exact .inl (read .cmplo rfl (Host.Outcome.next.inj h))
  | rdCmphi => exact .inl (read .cmphi rfl (Host.Outcome.next.inj h))
  | wrStatus d => exact .inr (.inl (skip .status d rfl rfl (Host.Outcome.next.inj h)))
  | wrTstart d => exact .inr (.inl (skip .tstart d rfl rfl (Host.Outcome.next.inj h)))
  | wrTend d => exact .inr (.inl (skip .tend d rfl rfl (Host.Outcome.next.inj h)))
  | wrWidth d => exact .inr (.inl (skip .width d rfl rfl (Host.Outcome.next.inj h)))
  | wrCount d => exact .inr (.inl (skip .count d rfl rfl (Host.Outcome.next.inj h)))
  | wrCmplo d => exact .inr (.inl (skip .cmplo d rfl rfl (Host.Outcome.next.inj h)))
  | wrCmphi d => exact .inr (.inl (skip .cmphi d rfl rfl (Host.Outcome.next.inj h)))
  | wrCtrl d =>
    have ht := (Host.Outcome.next.inj h).symm
    cases hb : trigBit d <;> simp only [hb] at ht
    · exact .inr (.inr (.inl ⟨d, rfl, hb, ht⟩))
    · exact .inr (.inr (.inr (.inl ⟨d, rfl, hb, ht⟩)))
  | wrCal0 d => exact .inr (.inr (.inr (.inr (.inl ⟨d, rfl, (Host.Outcome.next.inj h).symm⟩))))
  | wrCal180 d => exact .inr (.inr (.inr (.inr (.inr (.inl ⟨d, rfl, (Host.Outcome.next.inj h).symm⟩)))))
  | wrAngle d =>
    exact .inr (.inr (.inr (.inr (.inr (.inr (.inl ⟨d, rfl, (Host.Outcome.next.inj h).symm⟩))))))
  | wrCmp d =>
    exact .inr (.inr (.inr (.inr (.inr (.inr (.inr (.inl ⟨d, rfl, (Host.Outcome.next.inj h).symm⟩)))))))
  | tick =>
    exact .inr (.inr (.inr (.inr (.inr (.inr (.inr (.inr (.inl ⟨rfl, (Host.Outcome.next.inj h).symm⟩))))))))
  | rise =>
    exact .inr (.inr (.inr (.inr (.inr (.inr (.inr (.inr (.inr (.inl
      ⟨.rising, rfl, (Host.Outcome.next.inj h).symm⟩)))))))))
  | fall =>
    exact .inr (.inr (.inr (.inr (.inr (.inr (.inr (.inr (.inr (.inl
      ⟨.falling, rfl, (Host.Outcome.next.inj h).symm⟩)))))))))
  | reset =>
    exact .inr (.inr (.inr (.inr (.inr (.inr (.inr (.inr (.inr (.inr
      ⟨rfl, (Host.Outcome.next.inj h).symm⟩)))))))))

end Sys2Proof.Machine
end

