-- ==== Sys2Proof/Laws/Float64.lean ====
section
/-! SUPPORT. Binary64 rounding: it is to nearest even, monotone, and exact on a value with a short
significand. The rules on the DOUBLE interpolation (R165, R166, R179 to R181) rest on these facts. -/

namespace Sys2Proof.Machine

/-! ## Rounding to an integer -/

/-- The rounded quotient is within half a unit, and even where it is exactly half a unit away. -/
theorem nearestEven_spec (n : Nat) {d : Nat} (hd : 0 < d) :
    let m := nearestEven n d
    2 * n ≤ 2 * (d * m) + d ∧ 2 * (d * m) ≤ 2 * n + d ∧
    (2 * n = 2 * (d * m) + d → m % 2 = 0) ∧ (2 * (d * m) = 2 * n + d → m % 2 = 0) := by
  have hq : d * (n / d) + n % d = n := Nat.div_add_mod n d
  have hr : n % d < d := Nat.mod_lt _ hd
  have hs : d * (n / d + 1) = d * (n / d) + d := by ring
  simp only [nearestEven]
  split_ifs <;> (try rw [hs]) <;> refine ⟨?_, ?_, ?_, ?_⟩ <;> omega

theorem nearestEven_mono {n₁ n₂ d₁ d₂ : Nat} (h₁ : 0 < d₁) (h₂ : 0 < d₂) (h : n₁ * d₂ ≤ n₂ * d₁) :
    nearestEven n₁ d₁ ≤ nearestEven n₂ d₂ := by
  obtain ⟨-, low, -, even₁⟩ := nearestEven_spec n₁ h₁
  obtain ⟨high, -, even₂, -⟩ := nearestEven_spec n₂ h₂
  generalize nearestEven n₁ d₁ = m₁ at *
  generalize nearestEven n₂ d₂ = m₂ at *
  by_contra hlt
  obtain ⟨e, rfl⟩ : ∃ e, m₁ = m₂ + 1 + e := ⟨m₁ - (m₂ + 1), by omega⟩
  have hD : 0 < d₁ * d₂ := Nat.mul_pos h₁ h₂
  have lo := Nat.mul_le_mul_right d₂ low
  have hi := Nat.mul_le_mul_right d₁ high
  have he : e = 0 := by
    by_contra hne
    have : 1 ≤ e := Nat.one_le_iff_ne_zero.mpr hne
    nlinarith [Nat.mul_le_mul_left (d₁ * d₂) this]
  subst he
  have hlow : 2 * (d₁ * (m₂ + 1 + 0)) = 2 * n₁ + d₁ := by
    refine le_antisymm low (Nat.le_of_mul_le_mul_right ?_ h₂)
    nlinarith
  have hhigh : 2 * n₂ = 2 * (d₂ * m₂) + d₂ := by
    refine le_antisymm high (Nat.le_of_mul_le_mul_right ?_ h₁)
    nlinarith
  have := even₁ hlow
  have := even₂ hhigh
  omega

theorem nearestEven_mul (m : Nat) {d : Nat} (hd : 0 < d) : nearestEven (m * d) d = m := by
  simp [nearestEven, Nat.mul_div_cancel _ hd, Nat.mul_mod_left, hd]

theorem le_nearestEven {m n d : Nat} (hd : 0 < d) (h : m * d ≤ n) : m ≤ nearestEven n d := by
  have := nearestEven_mono (n₁ := m * d) (n₂ := n) hd hd (Nat.mul_le_mul_right d h)
  rwa [nearestEven_mul m hd] at this

theorem nearestEven_le {m n d : Nat} (hd : 0 < d) (h : n ≤ m * d) : nearestEven n d ≤ m := by
  have := nearestEven_mono (n₁ := n) (n₂ := m * d) hd hd (Nat.mul_le_mul_right d h)
  rwa [nearestEven_mul m hd] at this

/-- An integer on the other side of `N` than `x`, or beyond it, is at least half a unit away from `x`. -/
theorem half_le_abs_sub {x : Rat} {N M : Int} (h : |x - N| ≤ 1 / 2) (hM : M ≠ N) : 1 / 2 ≤ |x - M| := by
  obtain ⟨low, high⟩ := abs_le.mp h
  rcases lt_or_gt_of_ne hM with lt | gt
  · have : (M : Rat) + 1 ≤ N := by exact_mod_cast lt
    exact le_abs.mpr (.inl (by linarith))
  · have : (N : Rat) + 1 ≤ M := by exact_mod_cast gt
    exact le_abs.mpr (.inr (by linarith))

/-- The rounded quotient among the integers: it is within half a unit, and even in a tie. -/
theorem nearestEven_abs (n : Nat) {d : Nat} (hd : 0 < d) :
    |(n : Rat) / d - (nearestEven n d : Int)| ≤ 1 / 2 ∧
    (|(n : Rat) / d - (nearestEven n d : Int)| = 1 / 2 → nearestEven n d % 2 = 0) := by
  obtain ⟨h₁, h₂, even₁, even₂⟩ := nearestEven_spec n hd
  generalize nearestEven n d = N at *
  have p : (0 : Rat) < d := by exact_mod_cast hd
  have e : (n : Rat) / d * d = n := div_mul_cancel₀ _ p.ne'
  generalize (n : Rat) / d = x at *
  have r₁ : (2 : Rat) * n ≤ 2 * (d * N) + d := by exact_mod_cast h₁
  have r₂ : (2 : Rat) * (d * N) ≤ 2 * n + d := by exact_mod_cast h₂
  push_cast
  refine ⟨abs_le.mpr ⟨?_, ?_⟩, fun tie => ?_⟩
  · rw [← mul_le_mul_iff_left₀ p]; linarith
  · rw [← mul_le_mul_iff_left₀ p]; linarith
  · rcases (abs_eq (by norm_num)).mp tie with q | q
    · refine even₁ ?_
      have : (2 : Rat) * n = 2 * (d * N) + d := by linear_combination (2 * (d : Rat)) * q - 2 * e
      exact_mod_cast this
    · refine even₂ ?_
      have : (2 : Rat) * (d * N) = 2 * n + d := by linear_combination (-2 * (d : Rat)) * q + 2 * e
      exact_mod_cast this

/-! ## The significand -/

/-- The quotients this arithmetic meets: below 2⁵² in magnitude. -/
def InRange (n d : Nat) : Prop := 0 < d ∧ n < 2 ^ 52 * d

theorem significandShift_spec {n d : Nat} (hn : 0 < n) (h : InRange n d) :
    2 ^ 52 * d ≤ n * 2 ^ significandShift n d ∧ n * 2 ^ significandShift n d < 2 ^ 53 * d := by
  obtain ⟨hd, hlt⟩ := h
  have na : 2 ^ n.log2 ≤ n := Nat.log2_self_le hn.ne'
  have nb : n < 2 ^ (n.log2 + 1) := Nat.lt_log2_self
  have da : 2 ^ d.log2 ≤ d := Nat.log2_self_le hd.ne'
  have db : d < 2 ^ (d.log2 + 1) := Nat.lt_log2_self
  have hk : n.log2 ≤ 52 + d.log2 := by
    have : n < 2 ^ (52 + (d.log2 + 1)) := by
      rw [pow_add]
      calc n < 2 ^ 52 * d := hlt
        _ ≤ 2 ^ 52 * 2 ^ (d.log2 + 1) := Nat.mul_le_mul_left _ db.le
    have := (Nat.log2_lt hn.ne').mpr this
    omega
  obtain ⟨k, hke⟩ : ∃ k, 52 + d.log2 - n.log2 = k := ⟨_, rfl⟩
  have hsum : n.log2 + k = 52 + d.log2 := by omega
  have low : 2 ^ 52 * 2 ^ d.log2 ≤ n * 2 ^ k := by
    rw [← pow_add, ← hsum, pow_add]; exact Nat.mul_le_mul_right _ na
  have high : n * 2 ^ k < 2 ^ 53 * 2 ^ d.log2 := by
    have e : (2 : Nat) ^ 53 * 2 ^ d.log2 = 2 ^ (n.log2 + 1) * 2 ^ k := by
      rw [← pow_add, ← pow_add]; congr 1; omega
    rw [e]; exact Nat.mul_lt_mul_of_pos_right nb (by positivity)
  have db' : d < 2 * 2 ^ d.log2 := by rw [pow_succ] at db; omega
  unfold significandShift
  simp only [hke]
  split
  · next h => exact ⟨h, by omega⟩
  · next h =>
    have e : n * 2 ^ (k + 1) = 2 * (n * 2 ^ k) := by ring
    rw [e]; omega

theorem significandShift_anti {n₁ n₂ d₁ d₂ : Nat} (p₁ : 0 < n₁) (p₂ : 0 < n₂) (r₁ : InRange n₁ d₁)
    (r₂ : InRange n₂ d₂) (h : n₁ * d₂ ≤ n₂ * d₁) : significandShift n₂ d₂ ≤ significandShift n₁ d₁ := by
  obtain ⟨low, -⟩ := significandShift_spec p₁ r₁
  obtain ⟨-, high⟩ := significandShift_spec p₂ r₂
  generalize significandShift n₁ d₁ = k₁ at *
  generalize significandShift n₂ d₂ = k₂ at *
  by_contra hlt
  obtain ⟨e, rfl⟩ : ∃ e, k₂ = k₁ + 1 + e := ⟨k₂ - (k₁ + 1), by omega⟩
  have grow : n₂ * 2 ^ (k₁ + 1) ≤ n₂ * 2 ^ (k₁ + 1 + e) :=
    Nat.mul_le_mul_left _ (Nat.pow_le_pow_right (by decide) (by omega))
  have high' : n₂ * 2 ^ k₁ < 2 ^ 52 * d₂ := by
    have e' : n₂ * 2 ^ (k₁ + 1) = 2 * (n₂ * 2 ^ k₁) := by ring
    omega
  have a := Nat.mul_le_mul_right d₂ low
  have b := Nat.mul_lt_mul_of_pos_right high' r₁.1
  have c := Nat.mul_le_mul_right (2 ^ k₁) h
  nlinarith

namespace F64

/-- The rounding of a positive quotient. -/
theorem ofQuot_pos {n : Nat} (hn : 0 < n) (d : Nat) :
    ofQuot n d = ⟨(nearestEven (n * 2 ^ significandShift n d) d : Nat), significandShift n d⟩ := by
  have : (n : Int) ≠ 0 := by omega
  rw [ofQuot, if_neg this, Int.sign_eq_one_of_pos (show (0 : Int) < n by omega)]
  simp only [one_mul, Int.natAbs_natCast]

/-- The rounding of a quotient and of its negative have opposite values. -/
theorem val_ofQuot_neg (n : Int) (d : Nat) : (ofQuot (-n) d).val = -(ofQuot n d).val := by
  by_cases h : n = 0
  · simp [ofQuot, val, h]
  · simp [ofQuot, val, h, Int.sign_neg, neg_div]

theorem val_ofQuot_zero (d : Nat) : (ofQuot 0 d).val = 0 := by simp [ofQuot, val]

theorem val_ofQuot_nonneg (n d : Nat) : 0 ≤ (ofQuot n d).val := by
  rcases Nat.eq_zero_or_pos n with rfl | hn
  · simp [val_ofQuot_zero]
  · rw [ofQuot_pos hn, val]; positivity

theorem val_ofQuot_mono_pos {n₁ n₂ d₁ d₂ : Nat} (r₁ : InRange n₁ d₁) (r₂ : InRange n₂ d₂)
    (h : n₁ * d₂ ≤ n₂ * d₁) : (ofQuot n₁ d₁).val ≤ (ofQuot n₂ d₂).val := by
  rcases Nat.eq_zero_or_pos n₁ with rfl | p₁
  · rw [Nat.cast_zero, val_ofQuot_zero]; exact val_ofQuot_nonneg _ _
  have p₂ : 0 < n₂ := by
    rcases Nat.eq_zero_or_pos n₂ with rfl | h'
    · have := Nat.mul_pos p₁ r₂.1; omega
    · exact h'
  have anti := significandShift_anti p₁ p₂ r₁ r₂ h
  obtain ⟨-, high₁⟩ := significandShift_spec p₁ r₁
  obtain ⟨low₂, -⟩ := significandShift_spec p₂ r₂
  rw [ofQuot_pos p₁, ofQuot_pos p₂, val, val]
  generalize significandShift n₁ d₁ = k₁ at *
  generalize significandShift n₂ d₂ = k₂ at *
  rw [div_le_div_iff₀ (by positivity) (by positivity)]
  rcases Nat.eq_or_lt_of_le anti with rfl | hlt
  · have : nearestEven (n₁ * 2 ^ k₂) d₁ ≤ nearestEven (n₂ * 2 ^ k₂) d₂ := by
      refine nearestEven_mono r₁.1 r₂.1 ?_
      have := Nat.mul_le_mul_right (2 ^ k₂) h
      nlinarith
    push_cast
    gcongr
  · have a : nearestEven (n₁ * 2 ^ k₁) d₁ ≤ 2 ^ 53 := nearestEven_le r₁.1 high₁.le
    have b : 2 ^ 52 ≤ nearestEven (n₂ * 2 ^ k₂) d₂ := le_nearestEven r₂.1 low₂
    obtain ⟨e, rfl⟩ : ∃ e, k₁ = k₂ + 1 + e := ⟨k₁ - (k₂ + 1), by omega⟩
    have c : nearestEven (n₁ * 2 ^ (k₂ + 1 + e)) d₁ * 2 ^ k₂ ≤
        nearestEven (n₂ * 2 ^ k₂) d₂ * 2 ^ (k₂ + 1 + e) := by
      calc _ ≤ 2 ^ 53 * 2 ^ k₂ := Nat.mul_le_mul_right _ a
        _ = 2 ^ 52 * 2 ^ (k₂ + 1) := by rw [pow_succ]; omega
        _ ≤ 2 ^ 52 * 2 ^ (k₂ + 1 + e) :=
          Nat.mul_le_mul_left _ (Nat.pow_le_pow_right (by decide) (by omega))
        _ ≤ _ := Nat.mul_le_mul_right _ b
    push_cast
    exact_mod_cast c

/-- Rounding is monotone: the larger quotient has no smaller value. -/
theorem val_ofQuot_mono {n₁ n₂ : Int} {d₁ d₂ : Nat} (r₁ : InRange n₁.natAbs d₁)
    (r₂ : InRange n₂.natAbs d₂) (h : n₁ * d₂ ≤ n₂ * d₁) : (ofQuot n₁ d₁).val ≤ (ofQuot n₂ d₂).val := by
  have q₁ : (0 : Int) < d₁ := by exact_mod_cast r₁.1
  have q₂ : (0 : Int) < d₂ := by exact_mod_cast r₂.1
  rcases le_total 0 n₁ with s₁ | s₁ <;> rcases le_total 0 n₂ with s₂ | s₂
  · obtain ⟨m₁, rfl⟩ := Int.eq_ofNat_of_zero_le s₁
    obtain ⟨m₂, rfl⟩ := Int.eq_ofNat_of_zero_le s₂
    exact val_ofQuot_mono_pos (by simpa using r₁) (by simpa using r₂) (by exact_mod_cast h)
  · have z₁ : n₁ = 0 := by nlinarith
    have z₂ : n₂ = 0 := by subst z₁; nlinarith
    rw [z₁, z₂, val_ofQuot_zero, val_ofQuot_zero]
  · obtain ⟨m₁, hm₁⟩ := Int.eq_ofNat_of_zero_le (show 0 ≤ -n₁ by omega)
    obtain ⟨m₂, rfl⟩ := Int.eq_ofNat_of_zero_le s₂
    have : n₁ = -(m₁ : Int) := by omega
    rw [this, val_ofQuot_neg]
    exact le_trans (neg_nonpos.mpr (val_ofQuot_nonneg _ _)) (val_ofQuot_nonneg _ _)
  · obtain ⟨m₁, hm₁⟩ := Int.eq_ofNat_of_zero_le (show 0 ≤ -n₁ by omega)
    obtain ⟨m₂, hm₂⟩ := Int.eq_ofNat_of_zero_le (show 0 ≤ -n₂ by omega)
    have e₁ : n₁ = -(m₁ : Int) := by omega
    have e₂ : n₂ = -(m₂ : Int) := by omega
    subst e₁ e₂
    rw [val_ofQuot_neg, val_ofQuot_neg, neg_le_neg_iff]
    refine val_ofQuot_mono_pos (by simpa using r₂) (by simpa using r₁) ?_
    have : (m₂ : Int) * d₁ ≤ m₁ * d₂ := by nlinarith
    exact_mod_cast this

/-- Rounding is exact on a positive `m / 2 ^ j` with a significand of at most 53 bits. -/
theorem val_ofQuot_exact_pos {n d m j : Nat} (r : InRange n d) (hm : m < 2 ^ 53)
    (h : n * 2 ^ j = m * d) : (ofQuot n d).val = (m : Rat) / 2 ^ j := by
  rcases Nat.eq_zero_or_pos n with rfl | p
  · have : m = 0 := by
      rcases Nat.eq_zero_or_pos m with rfl | h'
      · rfl
      · have := Nat.mul_pos h' r.1; omega
    simp [this, val_ofQuot_zero]
  obtain ⟨low, -⟩ := significandShift_spec p r
  rw [ofQuot_pos p, val]
  generalize significandShift n d = k at *
  have hjk : j ≤ k := by
    by_contra hlt
    obtain ⟨e, rfl⟩ : ∃ e, j = k + 1 + e := ⟨j - (k + 1), by omega⟩
    have a : n * 2 ^ (k + 1) ≤ n * 2 ^ (k + 1 + e) :=
      Nat.mul_le_mul_left _ (Nat.pow_le_pow_right (by decide) (by omega))
    have b : m * d < 2 ^ 53 * d := Nat.mul_lt_mul_of_pos_right hm r.1
    have e' : n * 2 ^ (k + 1) = 2 * (n * 2 ^ k) := by ring
    omega
  obtain ⟨e, rfl⟩ : ∃ e, k = j + e := ⟨k - j, by omega⟩
  have : n * 2 ^ (j + e) = m * 2 ^ e * d := by rw [pow_add, ← mul_assoc, h]; ring
  rw [this, nearestEven_mul _ r.1]
  push_cast
  rw [pow_add, mul_div_mul_right _ _ (by positivity)]

/-- Rounding is exact on `m / 2 ^ j` with a significand of at most 53 bits. -/
theorem val_ofQuot_exact {n m : Int} {d j : Nat} (r : InRange n.natAbs d) (hm : m.natAbs < 2 ^ 53)
    (h : n * 2 ^ j = m * d) : (ofQuot n d).val = (m : Rat) / 2 ^ j := by
  have q : (0 : Int) < d := by exact_mod_cast r.1
  have e : (0 : Int) < 2 ^ j := by positivity
  rcases le_total 0 n with s | s
  · obtain ⟨a, rfl⟩ := Int.eq_ofNat_of_zero_le s
    have : 0 ≤ m := by by_contra hneg; nlinarith
    obtain ⟨b, rfl⟩ := Int.eq_ofNat_of_zero_le this
    exact val_ofQuot_exact_pos (by simpa using r) (by simpa using hm) (by exact_mod_cast h)
  · obtain ⟨a, ha⟩ := Int.eq_ofNat_of_zero_le (show 0 ≤ -n by omega)
    have : 0 ≤ -m := by by_contra hneg; nlinarith
    obtain ⟨b, hb⟩ := Int.eq_ofNat_of_zero_le this
    have e₁ : n = -(a : Int) := by omega
    have e₂ : m = -(b : Int) := by omega
    subst e₁ e₂
    rw [val_ofQuot_neg, val_ofQuot_exact_pos (m := b) (j := j) (by simpa using r) (by simpa using hm)
      (by have : (a : Int) * 2 ^ j = b * d := by linarith
          exact_mod_cast this)]
    push_cast
    ring

/-- Truncating a value of 0 or more takes its floor. -/
theorem trunc_eq_floor {a : F64} (h : 0 ≤ a.val) : a.trunc = ⌊a.val⌋ := by
  have hn : 0 ≤ a.num := by
    unfold val at h
    have : (0 : Rat) ≤ a.num := by
      have := mul_nonneg h (show (0 : Rat) ≤ 2 ^ a.scale by positivity)
      rwa [div_mul_cancel₀ _ (by positivity)] at this
    exact_mod_cast this
  rw [trunc, Int.tdiv_eq_ediv_of_nonneg hn, val]
  have := Rat.floor_intCast_div_natCast a.num (2 ^ a.scale)
  push_cast at this
  exact this.symm

/-- Truncating a value below 0 takes its ceiling. -/
theorem trunc_eq_ceil {a : F64} (h : a.val < 0) : a.trunc = ⌈a.val⌉ := by
  have p : (0 : Rat) < 2 ^ a.scale := by positivity
  have hn : a.num < 0 := by
    unfold val at h
    rcases div_neg_iff.mp h with ⟨-, h'⟩ | ⟨h', -⟩
    · linarith
    · exact_mod_cast h'
  have flip : a.val = -(⟨-a.num, a.scale⟩ : F64).val := by simp [val, neg_div]
  have e : a.trunc = -(⟨-a.num, a.scale⟩ : F64).trunc := by simp [trunc, Int.neg_tdiv]
  rw [e, trunc_eq_floor (by linarith), flip, Int.ceil_neg]

/-! ## Rounding to nearest, ties to even -/

theorem ofQuot_roundsTo_pos {n d : Nat} (hn : 0 < n) (r : InRange n d) :
    (ofQuot n d).RoundsTo ((n : Rat) / d) := by
  obtain ⟨low, high⟩ := significandShift_spec hn r
  rw [ofQuot_pos hn]
  generalize significandShift n d = k at *
  have hN : nearestEven (n * 2 ^ k) d ≤ 2 ^ 53 := nearestEven_le r.1 high.le
  obtain ⟨near, even⟩ := nearestEven_abs (n * 2 ^ k) r.1
  generalize nearestEven (n * 2 ^ k) d = N at *
  have pd : (0 : Rat) < d := by exact_mod_cast r.1
  have pk : (0 : Rat) < 2 ^ k := by positivity
  -- distances are compared on the grid of integers, scaled by 2 ^ k
  have scaled (y : Rat) : |(n : Rat) / d - y| * 2 ^ k = |((n * 2 ^ k : Nat) : Rat) / d - y * 2 ^ k| := by
    rw [← abs_of_pos pk, ← abs_mul, abs_of_pos pk]; push_cast; congr 1; ring
  have hv : (⟨(N : Int), k⟩ : F64).val * 2 ^ k = (N : Int) := by simp [val]
  have low' : (2 : Rat) ^ 52 ≤ ((n * 2 ^ k : Nat) : Rat) / d := by
    rw [le_div_iff₀ pd]; exact_mod_cast low
  generalize ((n * 2 ^ k : Nat) : Rat) / d = x at *
  have grid (M : Int) : |x - (N : Int)| ≤ |x - M| := by
    by_cases h : M = N
    · rw [h]
    · exact near.trans (half_le_abs_sub near h)
  refine ⟨by simpa using hN, fun m j hm => ?_, fun m hm h => ?_⟩
  · rw [← mul_le_mul_iff_left₀ pk, scaled, scaled, hv]
    rcases le_or_gt j k with hj | hj
    · obtain ⟨e, rfl⟩ := Nat.exists_eq_add_of_le hj
      have : (m : Rat) / 2 ^ j * 2 ^ (j + e) = ((m * 2 ^ e : Int) : Rat) := by
        push_cast; rw [pow_add]; field_simp
      rw [this]; exact grid _
    · -- a finer number is at most 2 ^ 52 on this grid, which is itself no farther than it
      obtain ⟨e, rfl⟩ := Nat.exists_eq_add_of_lt hj
      have h53 : (m : Rat) ≤ 2 ^ 53 := by exact_mod_cast (show m ≤ 2 ^ 53 by omega)
      have one : (1 : Rat) ≤ 2 ^ e := one_le_pow₀ (by norm_num)
      have fine : (m : Rat) / 2 ^ (k + e + 1) * 2 ^ k ≤ 2 ^ 52 := by
        have : (m : Rat) / 2 ^ (k + e + 1) * 2 ^ k = m / (2 ^ e * 2) := by
          rw [pow_succ, pow_add]; field_simp
        rw [this, div_le_iff₀ (by positivity)]
        nlinarith
      have g := grid (2 ^ 52)
      push_cast at g ⊢
      refine g.trans ?_
      rw [abs_of_nonneg (by linarith), abs_of_nonneg (by linarith)]
      linarith
  · have tie : |x - (N : Int)| = |x - (m : Rat)| := by
      have := congrArg (· * (2 : Rat) ^ k) h
      simp only [scaled, hv] at this
      rwa [div_mul_cancel₀ _ pk.ne'] at this
    have := even (le_antisymm near (tie ▸ half_le_abs_sub near hm))
    show (N : Int) % 2 = 0
    omega

theorem RoundsTo.neg {x : Rat} {r q : F64} (hn : q.num = -r.num) (hs : q.scale = r.scale)
    (h : r.RoundsTo x) : q.RoundsTo (-x) := by
  obtain ⟨short, near, even⟩ := h
  have hv : q.val = -r.val := by simp [val, hn, hs, neg_div]
  have flip (y : Rat) : |-x - y| = |x - -y| := by rw [← abs_neg]; ring_nf
  refine ⟨by rw [hn, Int.natAbs_neg]; exact short, fun m j hm => ?_, fun m hm h => ?_⟩
  · rw [hv, flip, flip, neg_neg]
    simpa [neg_div] using near (-m) j (by rwa [Int.natAbs_neg])
  · rw [hv, flip, flip, neg_neg] at h
    have := even (-m) (by omega) (by simpa [neg_div, hs] using h)
    omega

/-- Rounding gives the nearest number with a 53-bit significand, the even one in a tie. -/
theorem ofQuot_roundsTo {n : Int} {d : Nat} (r : InRange n.natAbs d) :
    (ofQuot n d).RoundsTo ((n : Rat) / d) := by
  rcases lt_trichotomy n 0 with h | rfl | h
  · obtain ⟨a, ha⟩ := Int.eq_ofNat_of_zero_le (show 0 ≤ -n by omega)
    obtain rfl : n = -(a : Int) := by omega
    have hp := ofQuot_roundsTo_pos (n := a) (d := d) (by omega) (by simpa using r)
    have := hp.neg (q := ofQuot (-(a : Int)) d) (by simp [ofQuot, show a ≠ 0 by omega, Int.sign_neg])
      (by simp [ofQuot, show a ≠ 0 by omega])
    simpa [neg_div] using this
  · exact ⟨by simp [ofQuot], fun m j _ => by simp [ofQuot, val], fun m _ _ => by simp [ofQuot]⟩
  · obtain ⟨a, rfl⟩ := Int.eq_ofNat_of_zero_le h.le
    rw [Int.cast_natCast]
    exact ofQuot_roundsTo_pos (by omega) (by simpa using r)

/-! ## The rounded operations -/

/-- A quotient by a power of two below 2⁵² in magnitude is one this arithmetic meets. -/
theorem inRange_of_abs_lt {n : Int} {s : Nat} (h : |(n : Rat) / 2 ^ s| < 2 ^ 52) :
    InRange n.natAbs (2 ^ s) := by
  refine ⟨by positivity, ?_⟩
  rw [abs_div, abs_of_pos (show (0 : Rat) < 2 ^ s by positivity), div_lt_iff₀ (by positivity)] at h
  have : ((n.natAbs : Nat) : Rat) < 2 ^ 52 * 2 ^ s := by rw [Nat.cast_natAbs]; push_cast; exact h
  exact_mod_cast this

/-- An integer below 2⁵² in magnitude is exact. -/
theorem val_ofInt {n : Int} (h : n.natAbs < 2 ^ 52) : (ofInt n).val = n := by
  have := val_ofQuot_exact (n := n) (m := n) (d := 1) (j := 0) ⟨by decide, by omega⟩ (by omega) (by simp)
  simpa [ofInt] using this

/-- The product before it is rounded. -/
theorem val_mul_val (a b : F64) :
    a.val * b.val = ((a.num * b.num : Int) : Rat) / 2 ^ (a.scale + b.scale) := by
  unfold val; push_cast; rw [pow_add, div_mul_div_comm]

/-- The sum before it is rounded. -/
theorem val_add_val (a b : F64) :
    a.val + b.val =
      ((a.num * 2 ^ b.scale + b.num * 2 ^ a.scale : Int) : Rat) / 2 ^ (a.scale + b.scale) := by
  unfold val; push_cast; rw [pow_add, div_add_div _ _ (by positivity) (by positivity)]; ring

theorem mul_mono {a b c e : F64} (h₁ : |a.val * b.val| < 2 ^ 52) (h₂ : |c.val * e.val| < 2 ^ 52)
    (h : a.val * b.val ≤ c.val * e.val) : (a.mul b).val ≤ (c.mul e).val := by
  rw [val_mul_val] at h₁ h₂
  rw [val_mul_val, val_mul_val, div_le_div_iff₀ (by positivity) (by positivity)] at h
  exact val_ofQuot_mono (inRange_of_abs_lt h₁) (inRange_of_abs_lt h₂) (by exact_mod_cast h)

theorem add_mono {a b c e : F64} (h₁ : |a.val + b.val| < 2 ^ 52) (h₂ : |c.val + e.val| < 2 ^ 52)
    (h : a.val + b.val ≤ c.val + e.val) : (a.add b).val ≤ (c.add e).val := by
  rw [val_add_val] at h₁ h₂
  rw [val_add_val, val_add_val, div_le_div_iff₀ (by positivity) (by positivity)] at h
  exact val_ofQuot_mono (inRange_of_abs_lt h₁) (inRange_of_abs_lt h₂) (by exact_mod_cast h)

theorem mul_exact {a b : F64} {m : Int} {j : Nat} (h₁ : |a.val * b.val| < 2 ^ 52)
    (hm : m.natAbs < 2 ^ 53) (h : a.val * b.val = m / 2 ^ j) : (a.mul b).val = m / 2 ^ j := by
  rw [val_mul_val] at h₁ h
  rw [div_eq_div_iff (by positivity) (by positivity)] at h
  exact val_ofQuot_exact (inRange_of_abs_lt h₁) hm (by exact_mod_cast h)

theorem add_exact {a b : F64} {m : Int} {j : Nat} (h₁ : |a.val + b.val| < 2 ^ 52)
    (hm : m.natAbs < 2 ^ 53) (h : a.val + b.val = m / 2 ^ j) : (a.add b).val = m / 2 ^ j := by
  rw [val_add_val] at h₁ h
  rw [div_eq_div_iff (by positivity) (by positivity)] at h
  exact val_ofQuot_exact (inRange_of_abs_lt h₁) hm (by exact_mod_cast h)

end F64

end Sys2Proof.Machine
end

