-- ==== Sys2Proof/Laws/PerInstr.lean ====
section
/-! SUPPORT. Statements made instruction by instruction: the input an instruction is encoded as passes
every check of well-formedness. -/

namespace Sys2Proof.Laws.EncodedWellFormed

/-- The encoding of an instruction is a well-formed input. -/
def Statement (i : Instr) : Prop := (encode i).wellFormed = true

/-- The checks read the descriptor alone, never DATA. -/
theorem wellFormed_wrInput (r : Reg) (data : Word) : (r.wrInput data).wellFormed = true := by
  have h : (r.wrInput data).wellFormed = (r.wrInput 0).wellFormed := rfl
  rw [h]
  cases r <;> decide

theorem rdCtrl : Statement .rdCtrl := rfl
theorem rdStatus : Statement .rdStatus := rfl
theorem rdTstart : Statement .rdTstart := rfl
theorem rdTend : Statement .rdTend := rfl
theorem rdWidth : Statement .rdWidth := rfl
theorem rdCount : Statement .rdCount := rfl
theorem rdCal0 : Statement .rdCal0 := rfl
theorem rdCal180 : Statement .rdCal180 := rfl
theorem rdAngle : Statement .rdAngle := rfl
theorem rdCmp : Statement .rdCmp := rfl
theorem rdCmplo : Statement .rdCmplo := rfl
theorem rdCmphi : Statement .rdCmphi := rfl
theorem wrCtrl (data : Word) : Statement (.wrCtrl data) := wellFormed_wrInput .ctrl data
theorem wrStatus (data : Word) : Statement (.wrStatus data) := wellFormed_wrInput .status data
theorem wrTstart (data : Word) : Statement (.wrTstart data) := wellFormed_wrInput .tstart data
theorem wrTend (data : Word) : Statement (.wrTend data) := wellFormed_wrInput .tend data
theorem wrWidth (data : Word) : Statement (.wrWidth data) := wellFormed_wrInput .width data
theorem wrCount (data : Word) : Statement (.wrCount data) := wellFormed_wrInput .count data
theorem wrCal0 (data : Word) : Statement (.wrCal0 data) := wellFormed_wrInput .cal0 data
theorem wrCal180 (data : Word) : Statement (.wrCal180 data) := wellFormed_wrInput .cal180 data
theorem wrAngle (data : Word) : Statement (.wrAngle data) := wellFormed_wrInput .angle data
theorem wrCmp (data : Word) : Statement (.wrCmp data) := wellFormed_wrInput .cmp data
theorem wrCmplo (data : Word) : Statement (.wrCmplo data) := wellFormed_wrInput .cmplo data
theorem wrCmphi (data : Word) : Statement (.wrCmphi data) := wellFormed_wrInput .cmphi data
theorem tick : Statement .tick := rfl
theorem rise : Statement .rise := rfl
theorem fall : Statement .fall := rfl
theorem reset : Statement .reset := rfl

end Sys2Proof.Laws.EncodedWellFormed
end

