-- ==== Sys2Proof/Laws/Run.lean ====
section
/-! SUPPORT. What an input can do when it is presented, and the induction over a run, said once. -/

namespace Sys2Proof.Machine

/-- A presented input is performed, answered with a bus error, or refused. -/
theorem present_cases (i : Input) (s : State) :
    (∃ j, decode i = .instr j ∧ present i s = exec j s) ∨
    (∃ isRead e, decode i = .busError isRead e ∧ present i s = .next (s.respond (.error isRead e))) ∨
    (∃ m, decode i = .malformed m ∧ present i s = .refused (refusalOf m)) := by
  unfold present
  cases h : decode i with
  | instr j => exact .inl ⟨j, rfl, rfl⟩
  | busError isRead e => exact .inr (.inl ⟨isRead, e, rfl, rfl⟩)
  | malformed m => exact .inr (.inr ⟨m, rfl, rfl⟩)

/-- An input that neither triggers nor resets changes the ranging unit and the line only as a tick, or as
an edge, does. -/
theorem present_of_not_restarts {i : Input} {s t : State} (hi : restarts i = false)
    (h : present i s = .next t) :
    (isTick i = false ∧ SameRanging t s) ∨
    (isTick i = true ∧ t = s.countTick.advanceSequencer.respond .quiet) ∨
    (isTick i = false ∧ isEcho i = true ∧ ∃ pol, t = (s.edge pol).respond .quiet) := by
  unfold restarts isTrigger isReset at hi
  unfold isTick isEcho
  rcases present_cases i s with ⟨j, hd, hp⟩ | ⟨isRead, e, hd, hp⟩ | ⟨m, -, hp⟩
  · rw [hp] at h
    rw [hd] at hi ⊢
    rcases exec_cases h with ⟨r, rfl, rfl⟩ | ⟨r, data, hr, rfl, rfl⟩ | ⟨data, rfl, -, rfl⟩ |
      ⟨data, rfl, hb, rfl⟩ | ⟨data, rfl, rfl⟩ | ⟨data, rfl, rfl⟩ | ⟨data, rfl, rfl⟩ | ⟨data, rfl, rfl⟩ |
      ⟨rfl, rfl⟩ | ⟨pol, rfl, rfl⟩ | ⟨rfl, -⟩
    · exact .inl ⟨by cases r <;> rfl, by simp [SameRanging]⟩
    · exact .inl ⟨by cases r <;> rfl, by simp [SameRanging]⟩
    · exact .inl ⟨rfl, by simp [SameRanging]⟩
    · simp_all [trigBit]
    · exact .inl ⟨rfl, by simp [SameRanging]⟩
    · exact .inl ⟨rfl, by simp [SameRanging]⟩
    · exact .inl ⟨rfl, by simp [SameRanging]⟩
    · exact .inl ⟨rfl, by simp [SameRanging]⟩
    · exact .inr (.inl ⟨rfl, rfl⟩)
    · exact .inr (.inr ⟨by cases pol <;> rfl, by cases pol <;> rfl, pol, rfl⟩)
    · simp at hi
  · rw [hp] at h
    cases h
    rw [hd]
    exact .inl ⟨rfl, by simp [SameRanging]⟩
  · rw [hp] at h; cases h

/-- A tick is performed, never refused. -/
theorem isTick_of_refused {i : Input} {s : State} {why : Refusal} (h : present i s = .refused why) :
    isTick i = false := by
  unfold isTick
  rcases present_cases i s with ⟨j, -, hp⟩ | ⟨_, _, hd, -⟩ | ⟨m, hd, -⟩
  · rw [hp] at h; cases j <;> cases h
  · rw [hd]; rfl
  · rw [hd]; rfl

/-! ## Inputs in order, and the HOST's wait -/

theorem presentAll_append {l : List Input} {s t : State} (h : presentAll l s = .next t) (m : List Input) :
    presentAll (l ++ m) s = presentAll m t := by
  induction l generalizing s with
  | nil => cases h; rfl
  | cons i l ih =>
    simp only [List.cons_append, presentAll] at h ⊢
    cases hp : present i s with
    | next u => rw [hp] at h; exact ih h
    | fault f => rw [hp] at h; cases h
    | refused r => rw [hp] at h; cases h

/-- Inputs that all have a next state split anywhere. -/
theorem presentAll_split {l m : List Input} {s u : State} (h : presentAll (l ++ m) s = .next u) :
    ∃ t, presentAll l s = .next t ∧ presentAll m t = .next u := by
  induction l generalizing s with
  | nil => exact ⟨s, rfl, h⟩
  | cons i l ih =>
    simp only [List.cons_append, presentAll] at h ⊢
    cases hp : present i s with
    | next t => rw [hp] at h; exact ih h
    | fault f => rw [hp] at h; cases h
    | refused r => rw [hp] at h; cases h

/-- A poll answers STATUS and changes nothing else. -/
theorem presentAll_rdStatus (s : State) :
    presentAll [encode .rdStatus] s = .next (s.respond (.read s.status)) := rfl

/-- The host sees DONE at a poll exactly where STATE is DONE. -/
theorem State.sawDone_poll (s : State) : (s.respond (.read s.status)).sawDone = (s.pulse == .done) := by
  show (s.status.extractLsb' 0 2 == 2#2) = _
  rw [State.status_state]
  cases s.pulse <;> rfl

/-- One poll of a wait: it ends at DONE, ends at the limit, or goes on. -/
theorem waitDone_cons {limit : Option Nat} {n : Nat} {gap : List Input} {gaps : List (List Input)} {s t : State}
    (h : presentAll (gap ++ [encode .rdStatus]) s = .next t) :
    waitDone limit n (gap :: gaps) s =
      if t.pulse = .done then .ok t
      else if limit = some (n + 1) then .noEcho t
      else waitDone limit (n + 1) gaps t := by
  obtain ⟨u, -, hu⟩ := presentAll_split h
  rw [presentAll_rdStatus] at hu
  cases hu
  by_cases hd : u.pulse = .done <;> simp [waitDone, h, State.sawDone_poll, hd]

namespace RunRecord

/-- One more input of a run gives its next state, or sets the mark. -/
theorem present_cases (r : RunRecord) (i : Input) :
    (∃ t, Machine.present i r.state = .next t ∧ r.present i = ⟨t, r.mark⟩) ∨
    (∃ why, Machine.present i r.state = .refused why ∧
      r.present i = ⟨r.state.respond .quiet, r.mark.or (some why)⟩) := by
  rcases Machine.present_cases i r.state with ⟨j, -, hp⟩ | ⟨isRead, e, -, hp⟩ | ⟨m, -, hp⟩
  · have ⟨t, ht⟩ : ∃ t, exec j r.state = .next t := by cases j <;> exact ⟨_, rfl⟩
    rw [ht] at hp
    exact .inl ⟨t, hp, by simp [RunRecord.present, hp]⟩
  · exact .inl ⟨_, hp, by simp [RunRecord.present, hp]⟩
  · exact .inr ⟨_, hp, by simp [RunRecord.present, hp]⟩

theorem presentAll_append (r : RunRecord) (l m : List Input) :
    r.presentAll (l ++ m) = (r.presentAll l).presentAll m := by
  simp [RunRecord.presentAll, List.foldl_append]

/-- Induction over a run in which no input triggers or resets: a property of the state and of the ticks so
far that every answer and every such input keeps holds at the end, where all its ticks are counted. -/
theorem induct_ticks (P : Nat → State → Prop) (answer : ∀ n s q, P n s → P n (s.respond q))
    (next : ∀ n s t i, P n s → restarts i = false → Machine.present i s = .next t →
      P (n + if isTick i then 1 else 0) t) :
    ∀ (l : List Input) (r : RunRecord) (n : Nat), P n r.state → (∀ i ∈ l, restarts i = false) →
      P (n + tickCount l) (r.presentAll l).state := by
  intro l
  induction l with
  | nil => intro r n h _; simpa [tickCount, RunRecord.presentAll] using h
  | cons i l ih =>
    intro r n h hl
    have one : P (n + if isTick i then 1 else 0) (r.present i).state := by
      rcases r.present_cases i with ⟨t, hp, hr⟩ | ⟨why, hp, hr⟩
      · rw [hr]; exact next n _ t i h (hl i (by simp)) hp
      · rw [hr, isTick_of_refused hp]; exact answer n _ _ h
    have count : tickCount (i :: l) = (if isTick i then 1 else 0) + tickCount l := by
      unfold tickCount; rw [List.countP_cons]; omega
    rw [count, ← Nat.add_assoc]
    exact ih (r.present i) _ one fun j hj => hl j (by simp [hj])

end RunRecord

end Sys2Proof.Machine
end

