-- ==== Sys2Proof/Tests/Slice0.lean ====
section
/-! SUPPORT. The model's own tests: decoding, the checks of well-formedness, one step of each instruction
with the result of spec/95_test_vectors.md, and a witness for each statement with hypotheses. -/

namespace Sys2Proof.Tests

open Sys2Proof.Machine

/-! ## A small machine -/

/-- The parameters of spec/95: P = 2, POLARITY, EXACT, with endpoints of its examples as defaults. -/
def params : Params := ⟨1, .polarity, .exact, 7000, 35000, 15999999, 0x400, none⟩

/-- The same with EDGE_MODE = BOTH. -/
def bothParams : Params := { params with edgeMode := .both }

/-- Power-on with the line low. -/
def start : State := State.powerOn params false

/-- Armed and waiting for an echo. -/
def armedIdle : State := { start with armed := true }

/-- Armed, with the start captured and the line high. -/
def armedRising : State :=
  { start with armed := true, pulse := .rising, tstart := 0xFFFF98, cnt := 0xFFC118, envLvl := true }

/-- A cycle completed. -/
def doneState : State :=
  { start with armed := true, pulse := .done, tstart := 0xFFFF98, tend := 0xFFC118 }

/-- A cycle completed in which the counter wrapped. -/
def wrapped : State := { doneState with tstart := 0, tend := 0xFFFFFF }

/-- Driving the line, with `n` ticks of the pulse to go. -/
def pulsing (n : Nat) : State := { start with tphase := .pulse, tcnt := n, dir := .output, sigOut := true }

/-- The line released, capture not yet armed. -/
def turning : State := { start with tphase := .turn }

/-- Armed, the start captured, the line low: the echo of an earlier level. -/
def risingLow (p : Params) : State := { armedRising with envLvl := false, params := p }

/-- Armed and waiting, with the line high. -/
def idleHigh (p : Params) : State := { armedIdle with envLvl := true, params := p }

/-- The 0 degree endpoint above the 180 degree one. -/
def reversed : State := { start with cal0 := 35000, cal180 := 7000 }

/-- The ticks of a trigger sequence, then an echo one tick long. -/
def echo : List Input :=
  [encode .tick, encode .tick, encode .tick, encode .rise, encode .tick, encode .fall]

/-- The state after one step that takes these bits, descriptor in 15:0 and DATA in 47:16. -/
def after (w : Nat) (s : State) : Option State :=
  match step (s.withFetchWord 48 w) with
  | .next t => some t
  | .fault _ => none
  | .refused _ => none

/-- The read data of one step. -/
def rdataOf (w : Nat) (s : State) : Option Word := (after w s).bind fun t => t.resp.rdata

/-! ## Decoding (R84, R86, R87; spec/95 L2.9) -/

theorem test_decode_reads :
    [0x2000, 0x2004, 0x2008, 0x200C, 0x2010, 0x2014, 0x2020, 0x2024, 0x2028, 0x202C, 0x2030, 0x2034].map
        (decodeTableWord 16) =
      [some .rdCtrl, some .rdStatus, some .rdTstart, some .rdTend, some .rdWidth, some .rdCount,
        some .rdCal0, some .rdCal180, some .rdAngle, some .rdCmp, some .rdCmplo, some .rdCmphi] := by decide

theorem test_decode_writes :
    [0x123456786000, 0x123456786004, 0x123456786008, 0x12345678600C, 0x123456786010, 0x123456786014,
        0x123456786020, 0x123456786024, 0x123456786028, 0x12345678602C, 0x123456786030, 0x123456786034].map
        (decodeTableWord 48) =
      [some (.wrCtrl 0x12345678), some (.wrStatus 0x12345678), some (.wrTstart 0x12345678),
        some (.wrTend 0x12345678), some (.wrWidth 0x12345678), some (.wrCount 0x12345678),
        some (.wrCal0 0x12345678), some (.wrCal180 0x12345678), some (.wrAngle 0x12345678),
        some (.wrCmp 0x12345678), some (.wrCmplo 0x12345678), some (.wrCmphi 0x12345678)] := by decide

theorem test_decode_events :
    [0x8001, 0x8002, 0x8003, 0xC000].map (decodeTableWord 16) =
      [some .tick, some .rise, some .fall, some .reset] := by decide

theorem test_decode_bus_errors :
    [0x1004, 0x0004, 0x3004, 0x1005, 0x2005, 0x6001, 0x2018, 0x201C, 0x2038, 0x2040, 0x60FC].map
        (fun w => decode (Input.ofTableWord 16 w)) =
      [.busError true ⟨.size, 0x04⟩, .busError true ⟨.size, 0x04⟩, .busError true ⟨.size, 0x04⟩,
        .busError true ⟨.size, 0x05⟩, .busError true ⟨.align, 0x05⟩, .busError false ⟨.align, 0x01⟩,
        .busError true ⟨.unmapped, 0x18⟩, .busError true ⟨.unmapped, 0x1C⟩,
        .busError true ⟨.unmapped, 0x38⟩, .busError true ⟨.unmapped, 0x40⟩,
        .busError false ⟨.unmapped, 0xFC⟩] := by decide

theorem test_decode_malformed :
    [0x2104, 0x1104, 0x8000, 0x8004, 0x9001, 0x8F01, 0xC001, 0xD000].map
        (fun w => decode (Input.ofTableWord 16 w)) =
      [.malformed .reservedBits, .malformed .reservedBits, .malformed .unknownEvent,
        .malformed .unknownEvent, .malformed .reservedBits, .malformed .reservedBits,
        .malformed .reservedBits, .malformed .reservedBits] := by decide

/-- The lowest byte of each word first: the descriptor 0x6028, its DATA, then a tick. -/
theorem test_decode_bytes :
    decodeBytes [0x28, 0x60, 0x5A, 0x00, 0x00, 0x00, 0x01, 0x80] = some (.instr (.wrAngle 90), [0x01, 0x80]) ∧
    decodeBytes [0x01, 0x80] = some (.instr .tick, []) ∧
    decodeBytes [0x28, 0x60, 0x5A] = none := by decide

/-! ## Well-formedness: an ill-formed input for each check -/

theorem test_wf_reserved : Input.reservedZero ⟨0x2104, 0⟩ = false ∧ Input.wellFormed ⟨0x2104, 0⟩ = false := by decide
theorem test_wf_size : Input.sizeOk ⟨0x1004, 0⟩ = false ∧ Input.wellFormed ⟨0x1004, 0⟩ = false := by decide
theorem test_wf_event_size : Input.sizeOk ⟨0x9001, 0⟩ = false ∧ Input.wellFormed ⟨0x9001, 0⟩ = false := by decide
theorem test_wf_aligned : Input.aligned ⟨0x2005, 0⟩ = false ∧ Input.wellFormed ⟨0x2005, 0⟩ = false := by decide
theorem test_wf_mapped : Input.mapped ⟨0x2018, 0⟩ = false ∧ Input.wellFormed ⟨0x2018, 0⟩ = false := by decide
theorem test_wf_code : Input.codeAssigned ⟨0x8004, 0⟩ = false ∧ Input.wellFormed ⟨0x8004, 0⟩ = false := by decide
theorem test_wf_rst : Input.rstLowZero ⟨0xC001, 0⟩ = false ∧ Input.wellFormed ⟨0xC001, 0⟩ = false := by decide
theorem test_wf_accepts : Input.wellFormed ⟨0x2004, 0⟩ = true ∧ Input.wellFormed ⟨0xC000, 0⟩ = true := by decide

/-! ## One step of each instruction (spec/95 L2; the row is named) -/

/-- T4: the last pulse tick releases the line. -/
theorem test_tick_ends_pulse :
    after 0x8001 { start with cnt := 9, tphase := .pulse, tcnt := 1, dir := .output, sigOut := true } =
      some { start with cnt := 8, tphase := .turn } := by decide

/-- T6: the counter wraps and capture is armed. -/
theorem test_tick_wraps_and_arms :
    after 0x8001 { start with cnt := 0, tphase := .turn } =
      some { start with cnt := 0xFFFFFF, armed := true } := by decide

/-- G1: the sequence starts, the timestamps stay. -/
theorem test_trigger_from_done :
    after 0x000000016000 doneState =
      some { doneState with
        pulse := .idle, armed := false, tphase := .pulse, tcnt := 2, dir := .output, sigOut := true } := by decide

/-- G3: only DATA[0] is read. -/
theorem test_trigger_bit_clear : after 0x000000026000 armedRising = some armedRising := by decide

/-- E1. -/
theorem test_rise_captures_start :
    after 0x8002 { armedIdle with cnt := 0xFFFF98 } =
      some { armedIdle with cnt := 0xFFFF98, envLvl := true, tstart := 0xFFFF98, pulse := .rising } := by decide

/-- E6: with EDGE_MODE = BOTH a rising edge ends the cycle. -/
theorem test_rise_both_captures_end :
    (after 0x8002 { armedRising with envLvl := false, cnt := 0xFFFFF2, params := bothParams }).map
        (fun t => (t.tend, t.pulse, t.envLvl)) = some (0xFFFFF2, .done, true) := by decide

/-- E2. -/
theorem test_fall_captures_end :
    after 0x8003 armedRising =
      some { armedRising with envLvl := false, tend := 0xFFC118, pulse := .done } := by decide

/-- E3: with EDGE_MODE = POLARITY a falling edge cannot start a cycle. -/
theorem test_fall_cannot_start :
    after 0x8003 { armedIdle with envLvl := true } = some armedIdle := by decide

/-- S4 and S2. -/
theorem test_rd_status :
    rdataOf 0x2004 armedRising = some 5 ∧ rdataOf 0x2004 { start with tphase := .turn } = some 8 := by decide

theorem test_rd_tstart : rdataOf 0x2008 doneState = some 0x00FFFF98 := by decide
theorem test_rd_tend : rdataOf 0x200C doneState = some 0x00FFC118 := by decide

/-- P7 and P2 (W2): no wrap, and wrap. -/
theorem test_rd_width :
    rdataOf 0x2010 doneState = some 16000 ∧
    rdataOf 0x2010 { doneState with tstart := 50, tend := 100 } = some 0x00FFFFCE := by decide

/-- S7. -/
theorem test_rd_count : rdataOf 0x2014 { start with cnt := 10 } = some 0x0000000A := by decide

/-- G9. -/
theorem test_rd_ctrl : rdataOf 0x2000 { start with tphase := .pulse } = some 0 := by decide

theorem test_rd_cal0 : rdataOf 0x2020 start = some 0x00001B58 := by decide
theorem test_rd_cal180 : rdataOf 0x2024 start = some 0x000088B8 := by decide
theorem test_rd_angle : rdataOf 0x2028 { start with cmplo := 0x5208 } = some 0 := by decide
theorem test_rd_cmp : rdataOf 0x202C { start with cmphi := 1, cmplo := 0xFFFF } = some 0x0001FFFF := by decide
theorem test_rd_cmplo : rdataOf 0x2030 { start with cmphi := 1, cmplo := 0xFFFF } = some 0x0000FFFF := by decide
theorem test_rd_cmphi : rdataOf 0x2034 { start with cmphi := 1, cmplo := 0xFFFF } = some 0x00000001 := by decide

/-- S8 to S12. -/
theorem test_wr_status : after 0x000000006004 doneState = some doneState := by decide
theorem test_wr_tstart : after 0x000000076008 doneState = some doneState := by decide
theorem test_wr_tend : after 0x00000007600C doneState = some doneState := by decide
theorem test_wr_width : after 0x000000006010 doneState = some doneState := by decide
theorem test_wr_count : after 0x000000006014 doneState = some doneState := by decide

/-- C3 and C4. -/
theorem test_wr_cmplo :
    after 0x000000006030 { start with cmplo := 0xFFFF } = some { start with cmplo := 0xFFFF } := by decide
theorem test_wr_cmphi :
    after 0x000000006034 { start with cmphi := 1 } = some { start with cmphi := 1 } := by decide

/-- C5 and C6: no reload. -/
theorem test_wr_cal0 :
    after 0x000000006020 { start with cmplo := 0xFFFF } = some { start with cal0 := 0, cmplo := 0xFFFF } := by decide
theorem test_wr_cal180 : after 0x0002FFFF6024 start = some { start with cal180 := 196607 } := by decide

/-- A19. -/
theorem test_wr_angle :
    after 0x0000005A6028 { start with cal0 := 65536, cal180 := 196607 } =
      some { start with
        cal0 := 65536, cal180 := 196607, cmplo := 0xFFFF, cmphi := 1, resp := ⟨none, none, some 131071⟩ } := by
  decide

/-- A24: DATA = −2³¹ is clamped to 0 degrees. -/
theorem test_wr_angle_negative :
    (after 0x800000006028 { start with cal0 := 65536, cal180 := 196607 }).map
        (fun t => (t.cmplo, t.cmphi)) = some (0x0000, 0x0001) := by decide

/-- C1. -/
theorem test_wr_cmp :
    after 0x00030063602C start =
      some { start with cmplo := 0x0063, cmphi := 0x0003, resp := ⟨none, none, some 0x00030063⟩ } := by decide

/-- R1 of L2.8: ENV_LVL is unchanged and no load is emitted. -/
theorem test_reset :
    after 0xC000 { doneState with cal0 := 5, cmphi := 1, cnt := 0x1234, envLvl := true, dir := .output } =
      some { start with envLvl := true } := by decide

/-- B6: a misaligned write of CTRL errs and triggers nothing. -/
theorem test_bus_error_write :
    after 0x000000016001 armedIdle =
      some { armedIdle with resp := ⟨none, some ⟨.align, 0x01⟩, none⟩ } := by decide

/-- B7: a read that errs returns 0. -/
theorem test_bus_error_read :
    after 0x2018 armedIdle = some { armedIdle with resp := ⟨some 0, some ⟨.unmapped, 0x18⟩, none⟩ } := by decide

/-- The first step after reset, with a tick placed. -/
theorem test_step_from_reset :
    (match step (State.reset.withFetchWord 16 0x8001) with
      | .next t => some t.cnt
      | .fault _ => none
      | .refused _ => none) = some 0xFFFFFE := by decide

/-! ## The two computations (spec/95 L2.5, L2.6) -/

theorem test_pulse_width_rows :
    [((100 : Int), (50 : Int)), (50, 100), (7, 7), (0, 0xFFFFFF), (0xFFFFFF, 0), (0x0A, 0xFFFFEA)].map
        (fun p => pulseWidth p.1 p.2) = [50, 16777166, 0, 1, 0xFFFFFF, 32] := by decide

theorem test_interp_exact_rows :
    [((7000 : Int), (35000 : Int), (1 : Int)), (35000, 7000, 1), (7000, 35000, 60), (201, 100, 90),
        (0xFFFFFFFF, 0, 90), (0, 0xFFFFFFFF, 1), (0, 585, 52)].map (fun p => interpExact p.1 p.2.1 p.2.2) =
      [7155, 34844, 16333, 150, 0x7FFFFFFF, 23860929, 169] := by decide

theorem test_interp_double_rows :
    [((7000 : Int), (35000 : Int), (1 : Int)), (35000, 7000, 1), (7000, 35000, 60), (201, 100, 90),
        (0xFFFFFFFF, 0, 90), (0, 0xFFFFFFFF, 1), (0, 585, 52)].map (fun p => interpDouble p.1 p.2.1 p.2.2) =
      [7155, 34844, 16333, 150, 0x7FFFFFFF, 23860929, 168] := by decide

/-! ## Witnesses: a concrete input and state for the hypotheses of each statement -/

theorem witness_OneDescriptorPerInput :
    decode ⟨0x602C, 7⟩ = .instr (.wrCmp 7) ∧ hasData 0x602C = true := by decide

/-- Size, alignment and mapping. -/
theorem witness_IllegalAccessAnswersBusError :
    ((0x1004 : Half).getLsbD 15 = false ∧ (0x1004 : Half).extractLsb' 8 4 = 0#4 ∧
      (0x1004 : Half).extractLsb' 12 2 ≠ 2#2) ∧
    ((0x6001 : Half).getLsbD 15 = false ∧ (0x6001 : Half).extractLsb' 8 4 = 0#4 ∧
      (0x6001 : Half).extractLsb' 12 2 = 2#2 ∧ (0x6001 : Half).extractLsb' 0 2 ≠ 0#2) ∧
    ((0x60FC : Half).getLsbD 15 = false ∧ (0x60FC : Half).extractLsb' 8 4 = 0#4 ∧
      (0x60FC : Half).extractLsb' 12 2 = 2#2 ∧ (0x60FC : Half).extractLsb' 0 2 = 0#2 ∧
      (0x60FC : Half).extractLsb' 0 8 ∉ Input.mappedOffsets) := by decide

/-- A reserved bit, an event's size, an event's code and a reset's low byte. -/
theorem witness_MalformedDescriptorRefused :
    ((0x2104 : Half).extractLsb' 8 4 ≠ 0#4) ∧
    ((0x9001 : Half).extractLsb' 8 4 = 0#4 ∧ (0x9001 : Half).getLsbD 15 = true ∧
      (0x9001 : Half).extractLsb' 12 2 ≠ 0#2) ∧
    ((0x8004 : Half).extractLsb' 8 4 = 0#4 ∧ (0x8004 : Half).extractLsb' 14 2 = 2#2 ∧
      (0x8004 : Half).extractLsb' 12 2 = 0#2 ∧
      (0x8004 : Half).extractLsb' 0 8 ∉ [0x01#8, 0x02#8, 0x03#8]) ∧
    ((0xC001 : Half).extractLsb' 8 4 = 0#4 ∧ (0xC001 : Half).extractLsb' 14 2 = 3#2 ∧
      (0xC001 : Half).extractLsb' 12 2 = 0#2 ∧ (0xC001 : Half).extractLsb' 0 8 ≠ 0#8) := by decide

theorem witness_RefusalMarkStays :
    present ⟨0x8000, 0⟩ (RunRecord.mk start none).state = .refused .unknownEvent ∧
    present ⟨0x2104, 0⟩ (RunRecord.mk start none).state = .refused .reservedBits := ⟨rfl, rfl⟩

theorem witness_StepRunsDecodedInput :
    (start.presentFirst ⟨0x8001, 0⟩).inputs = [⟨0x8001, 0⟩] ∧ decode ⟨0x8001, 0⟩ = .instr .tick ∧
    (start.presentFirst ⟨0x2018, 0⟩).inputs = [⟨0x2018, 0⟩] ∧
    decode ⟨0x2018, 0⟩ = .busError true ⟨.unmapped, 0x18⟩ ∧
    (start.presentFirst ⟨0x8004, 0⟩).inputs = [⟨0x8004, 0⟩] ∧ decode ⟨0x8004, 0⟩ = .malformed .unknownEvent := by
  decide

theorem witness_PlacedWordIsPresented : start.inputs = [] := by decide

theorem witness_ReadTimestampsGiveLatches : doneState.Inv ∧ armedRising.Inv ∧ start.Inv := by decide

theorem witness_ReadWidthGivesPulseWidth :
    (doneState.tstart.toNat < 2 ^ 24 ∧ doneState.tend.toNat < 2 ^ 24 ∧
      doneState.tend.toNat ≤ doneState.tstart.toNat) ∧
    (wrapped.tstart.toNat < 2 ^ 24 ∧ wrapped.tend.toNat < 2 ^ 24 ∧
      ¬wrapped.tend.toNat ≤ wrapped.tstart.toNat) := by decide

theorem witness_TriggerStartsCycle :
    (0xFFFFFFFF : Word).getLsbD 0 = true ∧ (0xFFFFFFFE : Word).getLsbD 0 = false := by decide

theorem witness_ExactAngleLoadsInterpolation : start.params.interpArith = .exact := by decide

theorem witness_TickCountsAndSequences :
    ((pulsing 1).tphase = .pulse ∧ (pulsing 1).tcnt = 1 ∧ (pulsing 1).Inv) ∧
    ((pulsing 2).tphase = .pulse ∧ 2 ≤ (pulsing 2).tcnt ∧ (pulsing 2).Inv) ∧
    (turning.tphase = .turn ∧ turning.Inv) ∧
    start.tphase = .off := by decide

theorem witness_RiseCapturesQualifyingEdge :
    armedRising.envLvl = true ∧
    (start.envLvl = false ∧ start.armed = false) ∧
    (armedIdle.envLvl = false ∧ armedIdle.armed = true ∧ armedIdle.pulse = .idle) ∧
    ((risingLow params).envLvl = false ∧ (risingLow params).armed = true ∧
      (risingLow params).pulse = .rising ∧ (risingLow params).params.edgeMode = .polarity) ∧
    ((risingLow bothParams).envLvl = false ∧ (risingLow bothParams).armed = true ∧
      (risingLow bothParams).pulse = .rising ∧ (risingLow bothParams).params.edgeMode = .both) ∧
    (doneState.envLvl = false ∧ doneState.armed = true ∧ doneState.pulse = .done) := by decide

theorem witness_FallCapturesQualifyingEdge :
    start.envLvl = false ∧
    (({ start with envLvl := true } : State).envLvl = true ∧
      ({ start with envLvl := true } : State).armed = false) ∧
    ((idleHigh params).envLvl = true ∧ (idleHigh params).armed = true ∧
      (idleHigh params).pulse = .idle ∧ (idleHigh params).params.edgeMode = .polarity) ∧
    ((idleHigh bothParams).envLvl = true ∧ (idleHigh bothParams).armed = true ∧
      (idleHigh bothParams).pulse = .idle ∧ (idleHigh bothParams).params.edgeMode = .both) ∧
    (armedRising.envLvl = true ∧ armedRising.armed = true ∧ armedRising.pulse = .rising) ∧
    (({ doneState with envLvl := true } : State).envLvl = true ∧
      ({ doneState with envLvl := true } : State).armed = true ∧
      ({ doneState with envLvl := true } : State).pulse = .done) := by decide

/-- The last pulse tick, from a state that meets the invariant. -/
theorem witness_StepKeepsInvariant :
    ((pulsing 1).presentFirst (encode .tick)).Inv ∧ ((pulsing 1).presentFirst (encode .tick)).CycleArmed ∧
    step ((pulsing 1).presentFirst (encode .tick)) =
      .next { start with cnt := 0xFFFFFE, tphase := .turn } := ⟨by decide, by decide, rfl⟩

theorem witness_StatusReadsFiveValues :
    (start.Inv ∧ start.CycleArmed) ∧ (armedIdle.Inv ∧ armedIdle.CycleArmed) ∧
    (armedRising.Inv ∧ armedRising.CycleArmed) ∧ (doneState.Inv ∧ doneState.CycleArmed) ∧
    (turning.Inv ∧ turning.CycleArmed) := by
  refine ⟨⟨?_, ?_⟩, ⟨?_, ?_⟩, ⟨?_, ?_⟩, ⟨?_, ?_⟩, ?_, ?_⟩ <;> decide

/-- A capture, a trigger and a reset, each from a state whose STATE it changes. -/
theorem witness_PulseStateTransitions :
    (∃ t, present ⟨0x8003, 0⟩ armedRising = .next t ∧ t.pulse ≠ armedRising.pulse) ∧
    (∃ t, present ⟨0x6000, 1⟩ doneState = .next t ∧ restarts ⟨0x6000, 1⟩ = true ∧ t.pulse ≠ doneState.pulse) ∧
    (∃ t, present ⟨0xC000, 0⟩ doneState = .next t ∧ restarts ⟨0xC000, 0⟩ = true ∧ t.pulse ≠ doneState.pulse) :=
  ⟨⟨_, rfl, by decide⟩, ⟨_, rfl, by decide⟩, ⟨_, rfl, by decide⟩⟩

/-- Each element changes in some step. -/
theorem witness_EachElementHasItsWriters :
    (∃ t, exec .tick start = .next t ∧ t.cnt ≠ start.cnt) ∧
    (∃ t, exec .rise armedIdle = .next t ∧ t.tstart ≠ armedIdle.tstart ∧ t.envLvl ≠ armedIdle.envLvl) ∧
    (∃ t, exec .fall armedRising = .next t ∧ t.tend ≠ armedRising.tend) ∧
    (∃ t, exec (.wrCtrl 1) armedIdle = .next t ∧ t.armed ≠ armedIdle.armed ∧ t.tphase ≠ armedIdle.tphase ∧
      t.tcnt ≠ armedIdle.tcnt ∧ t.dir ≠ armedIdle.dir ∧ t.sigOut ≠ armedIdle.sigOut) ∧
    (∃ t, exec (.wrCal0 1) start = .next t ∧ t.cal0 ≠ start.cal0) ∧
    (∃ t, exec (.wrCal180 1) start = .next t ∧ t.cal180 ≠ start.cal180) ∧
    (∃ t, exec (.wrCmp 0x10001) start = .next t ∧ t.cmplo ≠ start.cmplo ∧ t.cmphi ≠ start.cmphi) :=
  ⟨⟨_, rfl, by decide⟩, ⟨_, rfl, by decide⟩, ⟨_, rfl, by decide⟩, ⟨_, rfl, by decide⟩, ⟨_, rfl, by decide⟩,
    ⟨_, rfl, by decide⟩, ⟨_, rfl, by decide⟩⟩

theorem witness_LoadStrobeMarksEachLoad :
    ∃ t, present ⟨0x602C, 0xFFFF0001⟩ start = .next t ∧ t.resp.loaded = some 0xFFFF0001 :=
  ⟨_, rfl, by decide⟩

theorem witness_DonePortFollowsState :
    (∃ t, present ⟨0x8003, 0⟩ armedRising = .next t ∧ armedRising.donePort = false ∧ t.donePort = true) ∧
    (∃ t, present ⟨0x6000, 1⟩ doneState = .next t ∧ doneState.donePort = true ∧ t.donePort = false) :=
  ⟨⟨_, rfl, by decide⟩, ⟨_, rfl, by decide⟩⟩

theorem witness_LineAndCaptureInSequence :
    ((pulsing 2).Inv ∧ (pulsing 2).dir = .output ∧ (pulsing 2).tphase ≠ .off) ∧
    (start.Inv ∧ start.dir = .input) := by decide

/-- Two states that differ in the servo unit alone, and two that differ in the ranging unit alone. -/
theorem witness_UnitsDoNotInterfere :
    (∃ t t', present ⟨0x8002, 0⟩ armedIdle = .next t ∧
      present ⟨0x8002, 0⟩ { armedIdle with cal0 := 1, cmplo := 2 } = .next t' ∧
      SameRanging armedIdle { armedIdle with cal0 := 1, cmplo := 2 }) ∧
    (∃ t t', present ⟨0x6028, 90⟩ armedIdle = .next t ∧ present ⟨0x6028, 90⟩ doneState = .next t' ∧
      SameServo armedIdle doneState) :=
  ⟨⟨_, _, rfl, rfl, by decide⟩, ⟨_, _, rfl, rfl, by decide⟩⟩

theorem witness_ResultStableAfterDone :
    ∃ s1, exec .rdStatus doneState = .next s1 ∧ s1.sawDone = true ∧ doneState.armed = true ∧
      ∀ i ∈ [encode .rise, encode .tick, encode .fall], restarts i = false :=
  ⟨_, rfl, by decide, by decide, by decide⟩

/-- With P = 2: one tick, two, and three. -/
theorem witness_ArmsAfterPulseAndTurnaround :
    (1 : Word).getLsbD 0 = true ∧ (∃ s1, exec (.wrCtrl 1) armedRising = .next s1) ∧
    (∀ i ∈ [encode .tick, encode .rise, encode .tick, encode .tick], restarts i = false) ∧
    tickCount [encode .tick] < start.params.trigPulseTicks ∧
    tickCount [encode .tick, encode .rise, encode .tick] = start.params.trigPulseTicks ∧
    start.params.trigPulseTicks + 1 ≤ tickCount [encode .tick, encode .rise, encode .tick, encode .tick] :=
  ⟨by decide, ⟨_, rfl⟩, by decide, by decide, by decide, by decide⟩

/-- A pulse of two ticks across the wrap: start = 0 is below 2. -/
theorem witness_WidthCountsTicksBetweenCaptures :
    let s : State := { armedIdle with cnt := 0 }
    ∃ s1 u, s.pulse = .idle ∧ present (encode .rise) s = .next s1 ∧ s1.pulse = .rising ∧
      (∀ x ∈ [encode .tick, encode .tick], restarts x = false) ∧
      tickCount [encode .tick, encode .tick] < 2 ^ 24 ∧
      (RunRecord.presentAll ⟨s1, none⟩ [encode .tick, encode .tick]).state.pulse = .rising ∧
      present (encode .fall) (RunRecord.presentAll ⟨s1, none⟩ [encode .tick, encode .tick]).state = .next u ∧
      u.pulse = .done ∧ u.tstart.toNat < u.tend.toNat :=
  ⟨_, _, by decide, rfl, by decide, by decide, by decide, by decide, rfl, by decide, by decide⟩

/-- The hypotheses of WrapBranchIsOneUnderflow with no wrap: start = 5 is not below 2. -/
theorem witness_WrapBranchIsOneUnderflow :
    let s : State := { armedIdle with cnt := 5 }
    ∃ s1 u, s.pulse = .idle ∧ present (encode .rise) s = .next s1 ∧ s1.pulse = .rising ∧
      (∀ x ∈ [encode .tick, encode .tick], restarts x = false) ∧
      tickCount [encode .tick, encode .tick] < 2 ^ 24 ∧
      (RunRecord.presentAll ⟨s1, none⟩ [encode .tick, encode .tick]).state.pulse = .rising ∧
      present (encode .fall) (RunRecord.presentAll ⟨s1, none⟩ [encode .tick, encode .tick]).state = .next u ∧
      u.pulse = .done ∧ ¬u.tstart.toNat < u.tend.toNat :=
  ⟨_, _, by decide, rfl, by decide, by decide, by decide, by decide, rfl, by decide, by decide⟩

theorem witness_RangingCycleMeasuresEcho :
    start.envLvl = false ∧
    (∀ x ∈ [encode .tick, encode .tick, encode .tick] ++ [encode .tick], restarts x = false ∧ isEcho x = false) ∧
    start.params.trigPulseTicks + 1 ≤ tickCount [encode .tick, encode .tick, encode .tick] := by decide

theorem witness_PulseWidthIsModularDifference :
    (0xFFFFFF : Word).toNat < 2 ^ 24 ∧ (0 : Word).toNat < 2 ^ 24 := by decide

theorem witness_EdgeAndTickInEitherOrder :
    armedIdle.armed = true ∧ armedIdle.pulse = .idle ∧ armedIdle.envLvl = false := by decide

/-- The largest difference of two endpoints, a quotient by 180, a product, a sum, and a value of each sign. -/
theorem witness_DoubleRoundsToNearestEven :
    |((2 ^ 32 - 1 : Int) : Rat)| < 2 ^ 52 ∧
    (0 < 180 ∧ |(F64.mk 52 0).val / (180 : Nat)| < 2 ^ 52) ∧
    |(F64.mk 585 0).val * (F64.mk 1 1).val| < 2 ^ 52 ∧
    |(F64.mk (-585) 0).val + (F64.mk 1 1).val| < 2 ^ 52 ∧
    0 ≤ (F64.mk 1 1).val ∧ ¬0 ≤ (F64.mk (-3) 1).val := by norm_num [F64.val]

/-- The angle at the end of its range; the same hypotheses are those of TargetClampNeverActs. -/
theorem witness_ExactInterpolationIsFloor : (0 : Int) ≤ 180 ∧ (180 : Int) ≤ 180 := by decide

theorem witness_AngleClampedToRange : (0xFFFFFFF6 : Word).toInt < 0 ∧ 180 < (182 : Word).toInt := by decide

theorem witness_AngleMappingMonotone :
    (0x80000000 : Word).toInt ≤ (0x7FFFFFFF : Word).toInt ∧ start.cal0.toNat ≤ start.cal180.toNat ∧
    reversed.cal180.toNat ≤ reversed.cal0.toNat := by decide

/-- A wait that sees DONE at its last allowed poll, and a width read after a whole cycle or not at all. -/
theorem witness_WaitEndsOnlyAtDone :
    (∃ t, waitDone (some 3) 0 [[]] doneState = .ok t) ∧
    (∃ u t, waitDone none 0 [[]] armedRising = .polling u ∧ [([] : List Input)].length < 2 ∧
      presentAll ([encode .fall] ++ [encode .rdStatus]) u = .next t ∧ t.pulse = .done) ∧
    (∃ t, getWidth none [echo] [encode .tick] start = .ok t) ∧
    (∀ i ∈ [encode .tick], restarts i = false) ∧
    (∃ s1 u v, exec (.wrCtrl 1) start = .next s1 ∧ waitDone none 0 [echo] s1 = .ok u ∧
      presentAll [encode .tick] u = .next v) ∧
    (∃ s1 u, exec (.wrCtrl 1) start = .next s1 ∧ waitDone (some 1) 0 [[]] s1 = .noEcho u) :=
  ⟨⟨_, rfl⟩, ⟨_, _, rfl, by decide, rfl, by decide⟩, ⟨_, rfl⟩, by decide, ⟨_, _, _, rfl, rfl, rfl⟩,
    ⟨_, _, rfl, rfl⟩⟩

/-- Three polls: a limit of 3 is met at the last, one of 4 is not. -/
theorem witness_NoEchoWaitNeverSucceeds :
    start.pulse ≠ .done ∧
    (∀ gap ∈ [[], [encode .tick], [⟨0x2018, 0⟩]], ∀ i ∈ gap, isEcho i = false ∧
      decode i ≠ .malformed .reservedBits ∧ decode i ≠ .malformed .unknownEvent) ∧
    [[], [encode .tick], [⟨0x2018, 0⟩]].length < 4 ∧ 3 ≤ [[], [encode .tick], [⟨0x2018, 0⟩]].length ∧
    (∀ gap ∈ ([[], [], []] : List (List Input)), gap = []) := by decide

/-- The window's last mapped byte, and an unmapped address. -/
theorem witness_WindowBytesAreLittleEndian :
    ({ start with cmphi := 0xABCD } : State).windowByte (0x400 + 0x34 + 1) = some 0xAB ∧
    start.windowByte (0x400 + 0x18) = none ∧ start.windowByte 0x3FF = none := by decide

theorem witness_ReferenceDistanceIsExact : 1000 ∣ params.clkHz := by decide

end Sys2Proof.Tests
end

/-! # The scope: the two units, and the state after reset -/

namespace Sys2Proof.Machine

section

variable {s s' t t' : State}

/-! ## What an input does, as one equation for each kind of access -/

theorem exec_rd (r : Reg) (s : State) : exec r.rd s = .next (s.respond (.read (s.regView r))) := by
  cases r <;> rfl

theorem exec_wr_of_ignoresWrites {r : Reg} (hr : ignoresWrites r = true) (data : Word) (s : State) :
    exec (r.wr data) s = .next (s.respond .quiet) := by
  cases r with
  | status | tstart | tend | width | count | cmplo | cmphi => rfl
  | ctrl | cal0 | cal180 | angle | cmp => cases hr

theorem exec_wrCtrl (data : Word) (s : State) :
    exec (.wrCtrl data) s = .next ((if trigBit data then s.trigger else s).respond .quiet) := rfl

/-! ## Relations between two runs -/

/-- The relation is kept when both states undergo the same operation, for every operation from which `exec`
builds its meanings. The answers may differ: a read of one unit answers what that unit holds. -/
structure KeptByOperations (R : State → State → Prop) : Prop where
  respond : ∀ {s s'} (q q' : Response), R s s' → R (s.respond q) (s'.respond q')
  trigger : ∀ {s s'}, R s s' → R s.trigger s'.trigger
  cal0 : ∀ {s s'} (data : Word), R s s' → R { s with cal0 := data } { s' with cal0 := data }
  cal180 : ∀ {s s'} (data : Word), R s s' → R { s with cal180 := data } { s' with cal180 := data }
  angle : ∀ {s s'} (data : Word), R s s' →
    R (s.load (BitVec.ofInt 32 (angleTarget s.params.interpArith s.cal0 s.cal180 data)))
      (s'.load (BitVec.ofInt 32 (angleTarget s'.params.interpArith s'.cal0 s'.cal180 data)))
  load : ∀ {s s'} (v : Word), R s s' → R (s.load v) (s'.load v)
  tick : ∀ {s s'}, R s s' → R s.countTick.advanceSequencer s'.countTick.advanceSequencer
  edge : ∀ {s s'} (pol : Polarity), R s s' → R (s.edge pol) (s'.edge pol)
  reset : ∀ {s s'}, R s s' → R s.resetBlock s'.resetBlock

theorem KeptByOperations.exec {R : State → State → Prop} (hR : KeptByOperations R) {i : Instr}
    (h : exec i s = .next t) (h' : Machine.exec i s' = .next t') (hs : R s s') : R t t' := by
  rcases exec_cases h with ⟨r, rfl, rfl⟩ | ⟨r, data, hr, rfl, rfl⟩ | ⟨data, rfl, hb, rfl⟩ |
    ⟨data, rfl, hb, rfl⟩ | ⟨data, rfl, rfl⟩ | ⟨data, rfl, rfl⟩ | ⟨data, rfl, rfl⟩ | ⟨data, rfl, rfl⟩ |
    ⟨rfl, rfl⟩ | ⟨pol, rfl, rfl⟩ | ⟨rfl, rfl⟩
  · obtain rfl := Host.Outcome.next.inj ((exec_rd r s').symm.trans h')
    exact hR.respond _ _ hs
  · obtain rfl := Host.Outcome.next.inj ((exec_wr_of_ignoresWrites hr data s').symm.trans h')
    exact hR.respond _ _ hs
  · simp only [exec_wrCtrl, hb] at h'
    cases h'
    exact hR.respond _ _ hs
  · simp only [exec_wrCtrl, hb] at h'
    cases h'
    exact hR.respond _ _ (hR.trigger hs)
  · cases h'
    exact hR.respond _ _ (hR.cal0 data hs)
  · cases h'
    exact hR.respond _ _ (hR.cal180 data hs)
  · cases h'
    exact hR.angle data hs
  · cases h'
    exact hR.load data hs
  · cases h'
    exact hR.respond _ _ (hR.tick hs)
  · cases pol with
    | rising | falling =>
      cases h'
      exact hR.respond _ _ (hR.edge _ hs)
  · cases h'
    exact hR.respond _ _ (hR.reset hs)

/-- The two runs decode the same input, so they are performed, or answered with a bus error, together. -/
theorem KeptByOperations.present {R : State → State → Prop} (hR : KeptByOperations R) {inp : Input}
    (h : present inp s = .next t) (h' : Machine.present inp s' = .next t') (hs : R s s') : R t t' := by
  unfold Machine.present at h h'
  cases hd : decode inp <;> simp only [hd] at h h'
  case instr i => exact hR.exec h h' hs
  case busError isRead e =>
    cases h
    cases h'
    exact hR.respond _ _ hs
  case malformed m => cases h

/-! ## The ranging unit -/

/-- What the sequencer does is decided by TPHASE and TCNT, which the two states share. -/
theorem SameRanging.advanceSequencer (h : SameRanging s s') :
    SameRanging s.advanceSequencer s'.advanceSequencer := by
  obtain ⟨hcnt, hpulse, hstart, hend, harmed, hphase, htcnt, hdir, hsig, henv, hparams⟩ := h
  unfold State.advanceSequencer
  rw [← hphase, ← htcnt]
  cases hp : s.tphase with
  | pulse => by_cases h1 : s.tcnt = 1 <;> simp_all [SameRanging]
  | turn | off => simp_all [SameRanging]

/-- Whether a capture latches, and what, is decided by STATE, CNT and EDGE_MODE, which the two states share. -/
theorem SameRanging.capture (pol : Polarity) (h : SameRanging s s') :
    SameRanging (s.capture pol) (s'.capture pol) := by
  obtain ⟨hcnt, hpulse, hstart, hend, harmed, hphase, htcnt, hdir, hsig, henv, hparams⟩ := h
  unfold State.capture
  rw [← hpulse, ← hparams, ← hcnt]
  cases hp : s.pulse with
  | idle => by_cases hq : qualifies s.params.edgeMode .idle pol <;> simp_all [SameRanging]
  | rising => by_cases hq : qualifies s.params.edgeMode .rising pol <;> simp_all [SameRanging]
  | done => simp_all [SameRanging]

/-- Whether an edge reaches the capture is decided by ENV_LVL and ARMED, which the two states share. -/
theorem SameRanging.edge (pol : Polarity) (h : SameRanging s s') :
    SameRanging (s.edge pol) (s'.edge pol) := by
  have ⟨_, _, _, _, harmed, _, _, _, _, henv, _⟩ := h
  have hline : SameRanging { s with envLvl := pol.level } { s' with envLvl := pol.level } := by
    simp_all [SameRanging]
  unfold State.edge
  by_cases hl : s.envLvl = pol.level
  · rw [if_pos hl, if_pos (henv.symm.trans hl)]
    exact h
  · rw [if_neg hl, if_neg fun hl' => hl (henv.trans hl')]
    cases ha : s.armed with
    | true => simpa only [ha, ← harmed, if_true] using hline.capture pol
    | false => simpa only [ha, ← harmed, Bool.false_eq_true, if_false] using hline

theorem sameRanging_keptByOperations : KeptByOperations SameRanging where
  respond _ _ h := h
  trigger h := by simp_all [SameRanging]
  cal0 _ h := h
  cal180 _ h := h
  angle _ h := h
  load _ h := h
  tick h := SameRanging.advanceSequencer (by simp_all [SameRanging])
  edge pol h := SameRanging.edge pol h
  reset h := by simp_all [SameRanging]

/-! ## The servo unit -/

theorem SameServo.of_kept (h : SameServo t s) (h' : SameServo t' s') (hs : SameServo s s') :
    SameServo t t' := by simp_all [SameServo]

theorem State.advanceSequencer_keeps_servo (s : State) : SameServo s.advanceSequencer s := by
  rcases s.advanceSequencer_cases with ⟨-, -, h⟩ | ⟨-, -, h⟩ | ⟨-, h⟩ | ⟨-, h⟩ <;> rw [h] <;> simp [SameServo]

theorem State.edge_keeps_servo (pol : Polarity) (s : State) : SameServo (s.edge pol) s := by
  rcases s.edge_changes pol with h | h | ⟨-, -, h⟩ | ⟨-, -, h⟩ <;> rw [h] <;> simp [SameServo]

theorem sameServo_keptByOperations : KeptByOperations SameServo where
  respond _ _ h := h
  trigger h := h
  cal0 _ h := by simp_all [SameServo]
  cal180 _ h := by simp_all [SameServo]
  angle _ h := by simp_all [SameServo]
  load _ h := by simp_all [SameServo]
  tick h := SameServo.of_kept (State.advanceSequencer_keeps_servo _) (State.advanceSequencer_keeps_servo _) h
  edge pol h := SameServo.of_kept (State.edge_keeps_servo pol _) (State.edge_keeps_servo pol _) h
  reset h := by simp_all [SameServo]

end

/-- Settles O38: agreement on either unit is a relation that every operation of the block keeps. -/
theorem unitsDoNotInterfere : Obligations.UnitsDoNotInterfere := by
  unfold Obligations.UnitsDoNotInterfere
  intro inp s s' t t' h h'
  exact ⟨sameRanging_keptByOperations.present h h', sameServo_keptByOperations.present h h'⟩

/-! ## The state after reset -/

/-- STATUS is 0 wherever no sequence runs, capture is not armed and STATE is IDLE. -/
theorem State.status_eq_zero {s : State} (hphase : s.tphase = .off) (harmed : s.armed = false)
    (hpulse : s.pulse = .idle) : s.status = 0 := by
  unfold State.status State.tbusy
  rw [hphase, harmed, hpulse]
  decide

/-- Settles O29: every element of the power-on record is its value of R54, and the views follow from them. -/
theorem resetStateHoldsResetValues : Obligations.ResetStateHoldsResetValues := by
  unfold Obligations.ResetStateHoldsResetValues
  have hstatus : State.reset.status = 0 := State.status_eq_zero rfl rfl rfl
  exact ⟨rfl, rfl, rfl, rfl, rfl, rfl, rfl, rfl, rfl, rfl, rfl, rfl, rfl, hstatus, rfl, rfl, rfl, rfl⟩

end Sys2Proof.Machine

/-! # The state: its invariant, the writers of its elements, and the input a step takes -/

namespace Sys2Proof.Machine

section

variable {s t : State}

/-! ## The input a step takes -/

theorem step_presentFirst (i : Input) (s : State) : step (s.presentFirst i) = present i s := by
  unfold step
  rw [State.takeInput_presentFirst]

theorem step_of_inputs_nil (h : s.inputs = []) : step s = .fault .noInput := by
  unfold step
  rw [State.takeInput_nil h]

/-- A step that gives a next state took the first pending input. -/
theorem present_of_step (h : step s = .next t) :
    ∃ i rest, s.inputs = i :: rest ∧ present i { s with inputs := rest } = .next t := by
  cases hs : s.inputs with
  | nil => cases (step_of_inputs_nil hs).symm.trans h
  | cons i rest =>
    unfold step at h
    rw [State.takeInput_cons hs] at h
    exact ⟨i, rest, rfl, h⟩

/-! ## The invariant -/

/-- A property of one state that every operation keeps, whatever inputs are pending, is kept by every step. -/
theorem KeptByOperations.step {P : State → Prop} (hP : KeptByOperations fun s _ => P s)
    (hinputs : ∀ s l, P s → P { s with inputs := l }) (h : step s = .next t) (hs : P s) : P t := by
  obtain ⟨i, rest, -, hi⟩ := present_of_step h
  exact hP.present hi hi (hinputs s rest hs)

/-- A count is below 2²⁴, so a timestamp latched from it is too (R50). -/
theorem toNat_setWidth_count_lt (c : Count) : (c.setWidth 32).toNat < 2 ^ 24 := by
  rw [BitVec.toNat_setWidth_of_le (by decide)]
  exact c.isLt

theorem Dir.eq_input_of_ne_output {d : Dir} (h : d ≠ .output) : d = .input := by
  cases d with
  | input => rfl
  | output => exact absurd rfl h

theorem State.powerOn_inv (p : Params) (lvl : Bool) : (State.powerOn p lvl).Inv := by
  simp [State.Inv, State.powerOn]

theorem State.Inv.trigger (h : s.Inv) : s.trigger.Inv := by
  obtain ⟨hstamps, -⟩ := h
  refine ⟨hstamps, by simp, by simp, by simp, ?_, by simp⟩
  simp [Params.trigPulseTicks]

/-- A pulse that does not end at this tick has at least two ticks left, and capture arms only with the line
released: that is all the sequencer needs to keep R50. -/
theorem State.Inv.advanceSequencer (h : s.Inv) : s.advanceSequencer.Inv := by
  have ⟨hstamps, hdir, hsig, harmed, hpulse, hcnt⟩ := h
  rcases s.advanceSequencer_cases with ⟨hp, h1, ht⟩ | ⟨hp, h1, ht⟩ | ⟨hp, ht⟩ | ⟨-, ht⟩ <;> rw [ht]
  · have hdisarmed : s.armed ≠ true := by
      intro ha
      obtain ⟨hoff, -⟩ := harmed ha
      cases hoff.symm.trans hp
    exact ⟨hstamps, by simp, by simp, fun ha => absurd ha hdisarmed, by simp, by simp⟩
  · obtain ⟨hlo, hhi⟩ := hpulse hp
    refine ⟨hstamps, hdir, hsig, harmed, fun _ => ?_, fun hne => absurd hp hne⟩
    show 1 ≤ s.tcnt - 1 ∧ s.tcnt - 1 ≤ s.params.trigPulseTicks
    omega
  · have hoff : s.tphase ≠ .pulse := by simp [hp]
    have hin : s.dir = .input := Dir.eq_input_of_ne_output (mt hdir.mp hoff)
    exact ⟨hstamps, by simp [hin], by simpa [hp] using hsig, fun _ => ⟨rfl, hin⟩, by simp, fun _ => hcnt hoff⟩
  · exact h

theorem State.Inv.edge (pol : Polarity) (h : s.Inv) : (s.edge pol).Inv := by
  have ⟨⟨hstart, hend⟩, hrest⟩ := h
  rcases s.edge_changes pol with ht | ht | ⟨-, -, ht⟩ | ⟨-, -, ht⟩ <;> rw [ht]
  · exact h
  · exact h
  · exact ⟨⟨toNat_setWidth_count_lt s.cnt, hend⟩, hrest⟩
  · exact ⟨⟨hstart, toNat_setWidth_count_lt s.cnt⟩, hrest⟩

theorem inv_keptByOperations : KeptByOperations fun s _ => s.Inv where
  respond _ _ h := h
  trigger h := h.trigger
  cal0 _ h := h
  cal180 _ h := h
  angle _ h := h
  load _ h := h
  tick h := State.Inv.advanceSequencer h
  edge pol h := h.edge pol
  reset {s _} _ := State.powerOn_inv s.params s.envLvl

theorem State.CycleArmed.advanceSequencer (h : s.CycleArmed) : s.advanceSequencer.CycleArmed := by
  obtain ⟨-, hpulse, -, -, -, -, harmed⟩ := s.advanceSequencer_keeps
  intro hp
  exact harmed (h (hpulse ▸ hp))

/-- An edge moves STATE only while ARMED, and never disarms (R119, R121). -/
theorem State.CycleArmed.edge (pol : Polarity) (h : s.CycleArmed) : (s.edge pol).CycleArmed := by
  rcases s.edge_changes pol with ht | ht | ⟨ha, -, ht⟩ | ⟨ha, -, ht⟩ <;> rw [ht]
  · exact h
  · exact h
  · exact fun _ => ha
  · exact fun _ => ha

theorem cycleArmed_keptByOperations : KeptByOperations fun s _ => s.CycleArmed where
  respond _ _ h := h
  trigger _ hp := absurd rfl hp
  cal0 _ h := h
  cal180 _ h := h
  angle _ h := h
  load _ h := h
  tick h := State.CycleArmed.advanceSequencer h
  edge pol h := h.edge pol
  reset _ hp := absurd rfl hp

end

/-- Settles O31: both parts are properties that every operation of the block keeps by itself. -/
theorem stepKeepsInvariant : Obligations.StepKeepsInvariant := by
  unfold Obligations.StepKeepsInvariant
  intro s t hinv harmed h
  exact ⟨inv_keptByOperations.step (fun _ _ hs => hs) h hinv,
    cycleArmed_keptByOperations.step (fun _ _ hs => hs) h harmed⟩

/-- Settles O30: the power-on record meets both parts for any parameters and any level of the line. -/
theorem resetMeetsInvariant : Obligations.ResetMeetsInvariant :=
  ⟨State.powerOn_inv Config.params Config.powerOnLevel, fun hp => absurd rfl hp⟩

/-- Settles O9: the placed word heads the pending inputs, and a step takes their head. -/
theorem placedWordIsPresented : Obligations.PlacedWordIsPresented :=
  ⟨fun s nbits w => step_presentFirst (Input.ofTableWord nbits w) s, fun _ h => step_of_inputs_nil h⟩

/-! ## The writers of each element -/

/-- What the sequencer writes: ARMED at the end of phase TURN, and its own elements while a sequence runs. -/
theorem State.advanceSequencer_writes (s : State) :
    (s.advanceSequencer.armed ≠ s.armed → s.tphase = .turn) ∧
    (s.advanceSequencer.tphase ≠ s.tphase ∨ s.advanceSequencer.tcnt ≠ s.tcnt ∨
      s.advanceSequencer.dir ≠ s.dir ∨ s.advanceSequencer.sigOut ≠ s.sigOut → s.tphase ≠ .off) ∧
    s.advanceSequencer.inputs = s.inputs := by
  rcases s.advanceSequencer_cases with ⟨hp, -, h⟩ | ⟨hp, -, h⟩ | ⟨hp, h⟩ | ⟨hp, h⟩ <;> rw [h] <;> simp [hp]

/-- Settles O34: each way an instruction can be performed changes only the elements it is a writer of. -/
theorem eachElementHasItsWriters : Obligations.EachElementHasItsWriters := by
  unfold Obligations.EachElementHasItsWriters
  intro i s t h
  rcases exec_cases h with ⟨r, -, rfl⟩ | ⟨r, data, -, -, rfl⟩ | ⟨data, -, -, rfl⟩ | ⟨data, rfl, hb, rfl⟩ |
    ⟨data, rfl, rfl⟩ | ⟨data, rfl, rfl⟩ | ⟨data, rfl, rfl⟩ | ⟨data, rfl, rfl⟩ | ⟨rfl, rfl⟩ |
    ⟨pol, hi, rfl⟩ | ⟨rfl, rfl⟩
  · simp
  · simp
  · simp
  · have htrig : data.getLsbD 0 = true := hb
    simp [htrig]
  · simp
  · simp
  · simp
  · simp
  · obtain ⟨-, -, hstart, hend, henv, hparams, -⟩ := s.countTick.advanceSequencer_keeps
    obtain ⟨hcal0, hcal180, hlo, hhi, -⟩ := s.countTick.advanceSequencer_keeps_servo
    obtain ⟨harmed, hseq, hinputs⟩ := s.countTick.advanceSequencer_writes
    simpa [hstart, hend, henv, hparams, hcal0, hcal180, hlo, hhi, hinputs] using And.intro harmed hseq
  · have hecho : i = .rise ∨ i = .fall := by
      cases pol with
      | rising => exact .inl hi
      | falling => exact .inr hi
    rcases s.edge_changes pol with ht | ht | ⟨-, hp, ht⟩ | ⟨-, hp, ht⟩ <;> rw [ht]
    · simp
    · simp [hecho]
    · simp [hecho, hp]
    · simp [hecho, hp]
  · simp

end Sys2Proof.Machine

/-! # The result of a finished cycle, the run of a list of inputs, and the byte window -/

namespace Sys2Proof

/-! ## The register map -/

theorem Reg.off_mapped (r : Reg) : r.off.toNat < 64 ∧ r.off.toNat % 4 = 0 := by
  cases r <;> decide

/-- The offsets of the register map are distinct, so an offset names the one register it belongs to (R84). -/
theorem Reg.ofOff_eq_some_iff {off : Byte} {r : Reg} : Reg.ofOff off = some r ↔ r.off = off := by
  constructor
  · intro h
    unfold Reg.ofOff at h
    have hr := List.find?_some h
    exact beq_iff_eq.mp hr
  · rintro rfl
    cases r <;> rfl

end Sys2Proof

namespace Sys2Proof.Machine

section

variable {s t u : State}

/-! ## The result of a finished cycle -/

/-- `t` is in DONE, still holds the timestamps of `s`, and is ARMED if `s` is (R72). -/
abbrev State.HoldsResultOf (t s : State) : Prop :=
  t.pulse = .done ∧ t.tstart = s.tstart ∧ t.tend = s.tend ∧ (s.armed = true → t.armed = true)

theorem State.HoldsResultOf.advanceSequencer (h : t.HoldsResultOf s) :
    t.advanceSequencer.HoldsResultOf s := by
  obtain ⟨hp, hstart, hend, harmed⟩ := h
  obtain ⟨-, kpulse, kstart, kend, -, -, karmed⟩ := t.advanceSequencer_keeps
  exact ⟨kpulse.trans hp, kstart.trans hstart, kend.trans hend, karmed ∘ harmed⟩

/-- In DONE an edge moves the line and nothing else (R122): it latches only in IDLE and in RISING. -/
theorem State.HoldsResultOf.edge (pol : Polarity) (h : t.HoldsResultOf s) :
    (t.edge pol).HoldsResultOf s := by
  have ⟨hdone, _⟩ := h
  rcases t.edge_changes pol with ht | ht | ⟨-, hp, -⟩ | ⟨-, hp, -⟩
  · rwa [ht]
  · rwa [ht]
  · cases hp.symm.trans hdone
  · cases hp.symm.trans hdone

theorem State.HoldsResultOf.present {i : Input} (h : t.HoldsResultOf s) (hi : restarts i = false)
    (hu : present i t = .next u) : u.HoldsResultOf s := by
  rcases present_of_not_restarts hi hu with ⟨-, hsame⟩ | ⟨-, rfl⟩ | ⟨-, -, pol, rfl⟩
  · obtain ⟨hp, hstart, hend, harmed⟩ := h
    obtain ⟨-, kpulse, kstart, kend, karmed, -⟩ := hsame
    exact ⟨kpulse.trans hp, kstart.trans hstart, kend.trans hend, fun ha => karmed.trans (harmed ha)⟩
  · have hcount : t.countTick.HoldsResultOf s := h
    exact hcount.advanceSequencer
  · exact h.edge pol

theorem State.HoldsResultOf.presentAll {r : RunRecord} {l : List Input} (h : r.state.HoldsResultOf s)
    (hl : ∀ i ∈ l, restarts i = false) : (r.presentAll l).state.HoldsResultOf s :=
  RunRecord.induct_ticks (fun _ t => t.HoldsResultOf s) (fun _ _ _ ht => ht)
    (fun _ _ _ _ ht hi hu => ht.present hi hu) l r 0 h hl

/-- The width is a function of the timestamps alone (R129, R138). -/
theorem State.HoldsResultOf.regView_width (h : t.HoldsResultOf s) :
    t.regView .width = s.regView .width := by
  obtain ⟨-, hstart, hend, -⟩ := h
  simp only [State.regView, hstart, hend]

/-- A read of STATUS shows DONE only where STATE is DONE. -/
theorem pulse_done_of_rdStatus (h : exec .rdStatus s = .next t) (hd : t.sawDone = true) :
    s.pulse = .done ∧ t = s.respond (.read s.status) := by
  cases h
  exact ⟨beq_iff_eq.mp ((State.sawDone_poll s).symm.trans hd), rfl⟩

/-! ## A step, by what the input at the head of the list decodes to -/

theorem step_of_inputs_cons {i : Input} {rest : List Input} (h : s.inputs = i :: rest) :
    step s = present i { s with inputs := rest } := by
  unfold step
  rw [State.takeInput_cons h]

theorem present_of_instr {i : Input} {j : Instr} (h : decode i = .instr j) (s : State) :
    present i s = exec j s := by
  unfold present
  rw [h]

theorem present_of_busError {i : Input} {isRead : Bool} {e : BusError}
    (h : decode i = .busError isRead e) (s : State) :
    present i s = .next (s.respond (.error isRead e)) := by
  unfold present
  rw [h]
  rfl

theorem present_of_malformed {i : Input} {m : Malformed} (h : decode i = .malformed m) (s : State) :
    present i s = .refused (refusalOf m) := by
  unfold present
  rw [h]

/-! ## No input reads or changes the list of the pending ones -/

theorem State.advanceSequencer_inputs (s : State) (l : List Input) :
    ({ s with inputs := l } : State).advanceSequencer = { s.advanceSequencer with inputs := l } := by
  unfold State.advanceSequencer
  cases hp : s.tphase with
  | pulse => by_cases h1 : s.tcnt = 1 <;> simp [h1]
  | turn | off => simp [hp]

theorem State.capture_inputs (pol : Polarity) (s : State) (l : List Input) :
    ({ s with inputs := l } : State).capture pol = { s.capture pol with inputs := l } := by
  unfold State.capture
  cases hp : s.pulse with
  | idle => by_cases hq : qualifies s.params.edgeMode .idle pol <;> simp [hp, hq]
  | rising => by_cases hq : qualifies s.params.edgeMode .rising pol <;> simp [hp, hq]
  | done => simp [hp]

theorem State.edge_inputs (pol : Polarity) (s : State) (l : List Input) :
    ({ s with inputs := l } : State).edge pol = { s.edge pol with inputs := l } := by
  unfold State.edge
  by_cases hl : s.envLvl = pol.level
  · simp [hl]
  · cases ha : s.armed with
    | true => simpa [hl, ha] using State.capture_inputs pol { s with envLvl := pol.level } l
    | false => simp [hl]

theorem exec_inputs {i : Instr} (h : exec i s = .next t) (l : List Input) :
    exec i { s with inputs := l } = .next { t with inputs := l } := by
  rcases exec_cases h with ⟨r, rfl, rfl⟩ | ⟨r, data, hr, rfl, rfl⟩ | ⟨data, rfl, hb, rfl⟩ |
    ⟨data, rfl, hb, rfl⟩ | ⟨data, rfl, rfl⟩ | ⟨data, rfl, rfl⟩ | ⟨data, rfl, rfl⟩ | ⟨data, rfl, rfl⟩ |
    ⟨rfl, rfl⟩ | ⟨pol, rfl, rfl⟩ | ⟨rfl, rfl⟩
  · exact exec_rd r _
  · exact exec_wr_of_ignoresWrites hr data _
  · rw [exec_wrCtrl, hb]
    rfl
  · rw [exec_wrCtrl, hb]
    rfl
  · rfl
  · rfl
  · rfl
  · rfl
  · exact congrArg (fun v : State => Host.Outcome.next (v.respond .quiet))
      (s.countTick.advanceSequencer_inputs l)
  · cases pol with
    | rising | falling =>
      exact congrArg (fun v : State => Host.Outcome.next (v.respond .quiet)) (s.edge_inputs _ l)
  · rfl

theorem present_inputs {i : Input} (h : present i s = .next t) (l : List Input) :
    present i { s with inputs := l } = .next { t with inputs := l } := by
  rcases present_cases i s with ⟨j, hd, hp⟩ | ⟨isRead, e, hd, hp⟩ | ⟨m, -, hp⟩
  · rw [present_of_instr hd]
    exact exec_inputs (hp.symm.trans h) l
  · rw [present_of_busError hd]
    cases hp.symm.trans h
    rfl
  · cases hp.symm.trans h

/-- Whether an input is refused, and why, does not depend on the state. -/
theorem present_refused {i : Input} {why : Refusal} (h : present i s = .refused why) (t : State) :
    present i t = .refused why := by
  rcases present_cases i s with ⟨j, -, hp⟩ | ⟨isRead, e, -, hp⟩ | ⟨m, hd, hp⟩
  · rw [hp] at h
    cases j <;> cases h
  · cases hp.symm.trans h
  · rw [present_of_malformed hd, ← hp, h]

/-! ## A run, one step at a time -/

theorem run_succ_of_next {M : Host.Core} {x y : M.State} (h : M.step x = .next y) (k : Nat) :
    M.run (k + 1) x = M.run k y := by
  rw [Host.Core.run, h]

theorem run_succ_of_refused {M : Host.Core} {x : M.State} {why : M.Refusal} (h : M.step x = .refused why)
    (k : Nat) : M.run (k + 1) x = .refused why := by
  rw [Host.Core.run, h]

theorem core_run_succ_of_next (h : step s = .next t) (k : Nat) : core.run (k + 1) s = core.run k t :=
  run_succ_of_next (M := core) (x := s) (y := t) h k

theorem core_run_succ_of_refused {why : Refusal} (h : step s = .refused why) (k : Nat) :
    core.run (k + 1) s = .refused why :=
  run_succ_of_refused (M := core) (x := s) (why := why) h k

theorem presentAll_cons_of_next {i : Input} (h : present i s = .next t) (l : List Input) :
    presentAll (i :: l) s = presentAll l t := by
  rw [presentAll, h]

theorem presentAll_cons_of_refused {i : Input} {why : Refusal} (h : present i s = .refused why)
    (l : List Input) : presentAll (i :: l) s = .refused why := by
  rw [presentAll, h]

/-! ## The byte window -/

theorem State.windowByte_reg (s : State) (r : Reg) {k : Nat} (hk : k < 4) :
    s.windowByte (s.params.base + r.off.toNat + k) = some ((s.regView r).extractLsb' (8 * k) 8) := by
  obtain ⟨hlt, hmod⟩ := r.off_mapped
  have hbase : ¬ s.params.base + r.off.toNat + k < s.params.base := by omega
  have hrel : s.params.base + r.off.toNat + k - s.params.base = r.off.toNat + k := by omega
  have hwindow : ¬ 64 ≤ r.off.toNat + k := by omega
  have hword : (r.off.toNat + k) / 4 * 4 = r.off.toNat := by omega
  have hlane : (r.off.toNat + k) % 4 = k := by omega
  have hreg : Reg.ofOff (BitVec.ofNat 8 r.off.toNat) = some r := by
    rw [BitVec.ofNat_toNat, BitVec.setWidth_eq]
    exact Reg.ofOff_eq_some_iff.mpr rfl
  unfold State.windowByte
  simp only [hbase, hrel, hwindow, hword, hlane, hreg, if_false, Option.map_some]

/-- A byte that the window shows belongs to a mapped register's word. -/
theorem State.windowByte_eq_some {addr : Nat} {b : Byte} (h : s.windowByte addr = some b) :
    ∃ (r : Reg) (k : Nat), k < 4 ∧ addr = s.params.base + r.off.toNat + k := by
  unfold State.windowByte at h
  by_cases hbase : addr < s.params.base
  · simp [hbase] at h
  · by_cases hwindow : 64 ≤ addr - s.params.base
    · simp [hbase, hwindow] at h
    · simp only [hbase, hwindow, if_false, Option.map_eq_some_iff] at h
      obtain ⟨r, hr, -⟩ := h
      have hoff : r.off.toNat = (addr - s.params.base) / 4 * 4 := by
        rw [Reg.ofOff_eq_some_iff.mp hr, BitVec.toNat_ofNat]
        omega
      exact ⟨r, (addr - s.params.base) % 4, by omega, by omega⟩

end

/-- Settles O39: with STATE = DONE, every input that neither triggers nor resets keeps STATE, both
timestamps and ARMED, so the later reads answer the same views. -/
theorem resultStableAfterDone : Obligations.ResultStableAfterDone := by
  unfold Obligations.ResultStableAfterDone
  intro s s1 l hread hsaw hl
  obtain ⟨hdone, rfl⟩ := pulse_done_of_rdStatus hread hsaw
  have hheld : (s.respond (.read s.status)).HoldsResultOf s := ⟨hdone, rfl, rfl, id⟩
  have ht := State.HoldsResultOf.presentAll (r := ⟨s.respond (.read s.status), none⟩) hheld hl
  have ⟨htdone, hstart, hend, harmed⟩ := ht
  refine ⟨htdone, harmed, s.regView .width, ?_, ?_, ?_, exec_rd .width s⟩
  · rw [← hstart]
    exact exec_rd .tstart _
  · rw [← hend]
    exact exec_rd .tend _
  · rw [← ht.regView_width]
    exact exec_rd .width _

/-- Settles O10, by induction on the inputs: what an input does is the same whatever inputs are pending, so
the step that takes it leaves the state it is presented to in the list's order. -/
theorem runPresentsInputsInOrder : Obligations.RunPresentsInputsInOrder := by
  unfold Obligations.RunPresentsInputsInOrder
  intro l rest
  induction l with
  | nil => exact fun s => rfl
  | cons i l ih =>
    intro s
    have hstep : step { s with inputs := i :: l ++ rest } = present i { s with inputs := l ++ rest } :=
      step_of_inputs_cons rfl
    rcases RunRecord.present_cases ⟨s, none⟩ i with ⟨t, hp, -⟩ | ⟨why, hp, -⟩
    · have hrun := core_run_succ_of_next (hstep.trans (present_inputs hp _)) l.length
      have hpresent := presentAll_cons_of_next (present_inputs hp rest) l
      exact hrun.trans ((ih t).trans hpresent.symm)
    · have hrun := core_run_succ_of_refused (hstep.trans (present_refused hp _)) l.length
      have hpresent := presentAll_cons_of_refused (present_refused hp { s with inputs := rest }) l
      exact hrun.trans hpresent.symm

/-- Settles O57: an address in the window splits into the word's offset and the byte's lane. -/
theorem windowBytesAreLittleEndian : Obligations.WindowBytesAreLittleEndian := by
  unfold Obligations.WindowBytesAreLittleEndian
  refine ⟨fun s r k hk => ⟨s.regView r, exec_rd r s, s.windowByte_reg r hk⟩, fun s addr h => ?_⟩
  rw [Option.eq_none_iff_forall_ne_some]
  intro b hb
  obtain ⟨r, k, hk, haddr⟩ := State.windowByte_eq_some hb
  exact h r k hk haddr

/-- Settles O8: a step presents the head of the list, and presenting follows the decoder. -/
theorem stepRunsDecodedInput : Obligations.StepRunsDecodedInput := by
  unfold Obligations.StepRunsDecodedInput
  intro s inp rest h
  rw [step_of_inputs_cons h]
  exact ⟨fun i hd => present_of_instr hd _, fun isRead e hd => present_of_busError hd _,
    fun m hd => present_of_malformed hd _⟩

end Sys2Proof.Machine

/-! # The encoding: the fields of a descriptor, the decoder class by class, and the inputs that spell nothing -/

namespace Sys2Proof

/-! ## The fields of a descriptor -/

section

variable (cls sz : BitVec 2) (lo : Byte) (data : Word)

@[simp] theorem Input.cls_descriptor : (Input.mk (descriptor cls sz lo) data).cls = cls := by
  unfold Input.cls descriptor
  rw [BitVec.extractLsb'_append_eq_of_le (by decide), BitVec.extractLsb'_append_eq_of_le (by decide)]
  exact BitVec.extractLsb'_append_eq_left

@[simp] theorem Input.sz_descriptor : (Input.mk (descriptor cls sz lo) data).sz = sz := by
  unfold Input.sz descriptor
  rw [BitVec.extractLsb'_append_eq_of_le (by decide), BitVec.extractLsb'_append_eq_of_le (by decide)]
  exact BitVec.extractLsb'_append_eq_right

@[simp] theorem Input.rsv_descriptor : (Input.mk (descriptor cls sz lo) data).rsv = 0#4 := by
  unfold Input.rsv descriptor
  rw [BitVec.extractLsb'_append_eq_of_le (by decide)]
  exact BitVec.extractLsb'_append_eq_right

@[simp] theorem Input.lo_descriptor : (Input.mk (descriptor cls sz lo) data).lo = lo := by
  unfold Input.lo descriptor
  exact BitVec.extractLsb'_append_eq_right

end

/-- A descriptor with reserved bits 0 is put together from its other fields (R80). -/
theorem Input.desc_eq_descriptor {i : Input} (h : i.rsv = 0#4) : i.desc = descriptor i.cls i.sz i.lo := by
  unfold descriptor
  rw [← h]
  unfold Input.cls Input.sz Input.rsv Input.lo
  rw [BitVec.extractLsb'_append_extractLsb'_eq_extractLsb' (start₁ := 12) (start₂ := 14) (len₁ := 2) rfl,
    BitVec.extractLsb'_append_extractLsb'_eq_extractLsb' (start₁ := 8) (start₂ := 12) (len₁ := 4) rfl]
  exact (BitVec.extractLsb'_append_extractLsb' (w := 8) (len := 8) (x := i.desc)).symm

theorem Input.cls_cases (i : Input) : i.cls = 0b00#2 ∨ i.cls = 0b01#2 ∨ i.cls = 0b10#2 ∨ i.cls = 0b11#2 := by
  have h : ∀ c : BitVec 2, c = 0b00#2 ∨ c = 0b01#2 ∨ c = 0b10#2 ∨ c = 0b11#2 := by decide
  exact h i.cls

/-- Bits 15 and 14 of the descriptor are those of CLS (R80). -/
theorem Input.cls_eq (i : Input) :
    i.cls = BitVec.ofBool (i.desc.getLsbD 15) ++ BitVec.ofBool (i.desc.getLsbD 14) := by
  have h : ∀ c : BitVec 2, c = BitVec.ofBool (c.getLsbD 1) ++ BitVec.ofBool (c.getLsbD 0) := by decide
  simpa [Input.cls] using h i.cls

theorem Input.cls_of_not_access {i : Input} (h : i.desc.getLsbD 15 = true) : i.cls = 0b10#2 ∨ i.cls = 0b11#2 := by
  rw [i.cls_eq, h]
  cases i.desc.getLsbD 14
  · exact .inl rfl
  · exact .inr rfl

/-- The low two bits of the offset are those of the descriptor. -/
theorem Input.extractLsb'_lo (i : Input) : i.lo.extractLsb' 0 2 = i.desc.extractLsb' 0 2 :=
  BitVec.extractLsb'_extractLsb'_of_le (by decide)

/-! ## The register map and the event codes -/

theorem Reg.off_aligned (r : Reg) : r.off.extractLsb' 0 2 = 0#2 := by
  cases r <;> rfl

theorem Input.mem_mappedOffsets_iff {off : Byte} : off ∈ Input.mappedOffsets ↔ ∃ r : Reg, r.off = off := by
  constructor
  · have h : ∀ o ∈ Input.mappedOffsets, ∃ r ∈ Reg.all, r.off = o := by decide
    intro ho
    obtain ⟨r, -, hr⟩ := h off ho
    exact ⟨r, hr⟩
  · rintro ⟨r, rfl⟩
    cases r <;> decide

theorem eventOf_eq_some_iff {code : Byte} {e : Instr} :
    eventOf code = some e ↔
      (code = 0x01#8 ∧ e = .tick) ∨ (code = 0x02#8 ∧ e = .rise) ∨ (code = 0x03#8 ∧ e = .fall) := by
  unfold eventOf
  split_ifs with h1 h2 h3
  · simp [h1, eq_comm]
  · simp [h2, eq_comm]
  · simp [h3, eq_comm]
  · simp [h1, h2, h3]

theorem eventOf_eq_none_iff {code : Byte} : eventOf code = none ↔ code ∉ [0x01#8, 0x02#8, 0x03#8] := by
  unfold eventOf
  split_ifs <;> simp_all

/-! ## The decoder, class by class (R85) -/

section

variable {i : Input} {j : Instr}

theorem decode_of_reserved (h : i.rsv ≠ 0#4) : decode i = .malformed .reservedBits := if_pos h

theorem decode_of_read (h : i.rsv = 0#4) (hc : i.cls = 0b00#2) : decode i = decodeAccess true i := by
  simp [decode, h, hc]

theorem decode_of_write (h : i.rsv = 0#4) (hc : i.cls = 0b01#2) : decode i = decodeAccess false i := by
  simp [decode, h, hc]

theorem decode_of_event (h : i.rsv = 0#4) (hc : i.cls = 0b10#2) : decode i = decodeEvent i := by
  simp [decode, h, hc]

theorem decode_of_rst (h : i.rsv = 0#4) (hc : i.cls = 0b11#2) : decode i = decodeRst i := by
  simp [decode, h, hc]

/-- Bit 15 of the descriptor is 0 in a HOST access, and bit 14 tells a write from a read (R81). -/
theorem decode_of_access (h : i.rsv = 0#4) (ha : i.desc.getLsbD 15 = false) :
    decode i = decodeAccess (!i.desc.getLsbD 14) i := by
  have hc := i.cls_eq
  rw [ha] at hc
  cases hw : i.desc.getLsbD 14 <;> rw [hw] at hc
  · exact decode_of_read h hc
  · exact decode_of_write h hc

variable {isRead : Bool}

theorem decodeAccess_of_size (h : i.sz ≠ 2#2) : decodeAccess isRead i = .busError isRead ⟨.size, i.lo⟩ :=
  if_pos h

theorem decodeAccess_of_misaligned (hs : i.sz = 2#2) (h : i.lo.extractLsb' 0 2 ≠ 0#2) :
    decodeAccess isRead i = .busError isRead ⟨.align, i.lo⟩ := by
  simp [decodeAccess, hs, h]

theorem decodeAccess_of_unmapped (hs : i.sz = 2#2) (ha : i.lo.extractLsb' 0 2 = 0#2)
    (h : i.lo ∉ Input.mappedOffsets) : decodeAccess isRead i = .busError isRead ⟨.unmapped, i.lo⟩ := by
  have hnone : Reg.ofOff i.lo = none := by
    rw [Option.eq_none_iff_forall_ne_some]
    exact fun r hr => h (Input.mem_mappedOffsets_iff.mpr ⟨r, Reg.ofOff_eq_some_iff.mp hr⟩)
  simp [decodeAccess, hs, ha, hnone]

theorem decodeAccess_of_mapped (hs : i.sz = 2#2) {r : Reg} (hr : r.off = i.lo) :
    decodeAccess isRead i = .instr (if isRead then r.rd else r.wr i.data) := by
  have ha : i.lo.extractLsb' 0 2 = 0#2 := hr ▸ r.off_aligned
  simp [decodeAccess, hs, ha, Reg.ofOff_eq_some_iff.mpr hr]

/-- An access is performed exactly where it has the size of a word and names a register. -/
theorem decodeAccess_eq_instr_iff : decodeAccess isRead i = .instr j ↔
    i.sz = 2#2 ∧ ∃ r : Reg, r.off = i.lo ∧ j = if isRead then r.rd else r.wr i.data := by
  constructor
  · intro h
    by_cases hs : i.sz = 2#2
    · by_cases hm : i.lo ∈ Input.mappedOffsets
      · obtain ⟨r, hr⟩ := Input.mem_mappedOffsets_iff.mp hm
        rw [decodeAccess_of_mapped hs hr] at h
        exact ⟨hs, r, hr, (Decoded.instr.inj h).symm⟩
      · by_cases ha : i.lo.extractLsb' 0 2 = 0#2
        · cases (decodeAccess_of_unmapped hs ha hm).symm.trans h
        · cases (decodeAccess_of_misaligned hs ha).symm.trans h
    · cases (decodeAccess_of_size hs).symm.trans h
  · rintro ⟨hs, r, hr, rfl⟩
    exact decodeAccess_of_mapped hs hr

theorem decodeEvent_of_size (h : i.sz ≠ 0#2) : decodeEvent i = .malformed .reservedBits := if_pos h

theorem decodeEvent_of_unassigned (hs : i.sz = 0#2) (h : eventOf i.lo = none) :
    decodeEvent i = .malformed .unknownEvent := by
  simp [decodeEvent, hs, h]

theorem decodeEvent_eq_instr_iff : decodeEvent i = .instr j ↔ i.sz = 0#2 ∧ eventOf i.lo = some j := by
  by_cases hs : i.sz = 0#2
  · cases he : eventOf i.lo <;> simp [decodeEvent, hs, he]
  · simp [decodeEvent_of_size hs, hs]

theorem decodeRst_of_malformed (h : i.sz ≠ 0#2 ∨ i.lo ≠ 0#8) : decodeRst i = .malformed .reservedBits := if_pos h

theorem decodeRst_eq_instr_iff : decodeRst i = .instr j ↔ i.sz = 0#2 ∧ i.lo = 0#8 ∧ j = .reset := by
  by_cases h : i.sz ≠ 0#2 ∨ i.lo ≠ 0#8
  · rw [decodeRst_of_malformed h]
    simp only [reduceCtorEq, false_iff]
    rintro ⟨hs, hl, -⟩
    exact h.elim (· hs) (· hl)
  · obtain ⟨hs, hl⟩ := not_or.mp h
    simp_all [decodeRst, eq_comm]

end

/-! ## The encoder -/

theorem encode_rd (r : Reg) : encode r.rd = r.rdInput := by
  cases r <;> rfl

theorem encode_wr (r : Reg) (data : Word) : encode (r.wr data) = r.wrInput data := by
  cases r <;> rfl

theorem decode_rdInput (r : Reg) : decode r.rdInput = .instr r.rd := by
  unfold Reg.rdInput
  rw [decode_of_read (by simp) (by simp), decodeAccess_of_mapped (r := r) (by simp) (by simp), if_pos rfl]

theorem decode_wrInput (r : Reg) (data : Word) : decode (r.wrInput data) = .instr (r.wr data) := by
  unfold Reg.wrInput
  rw [decode_of_write (by simp) (by simp), decodeAccess_of_mapped (r := r) (by simp) (by simp)]
  rfl

/-- An instruction is a read or a write of a register, one of the three events, or the reset. -/
theorem Instr.forms (i : Instr) :
    (∃ r : Reg, i = r.rd) ∨ (∃ (r : Reg) (data : Word), i = r.wr data) ∨
      i = .tick ∨ i = .rise ∨ i = .fall ∨ i = .reset := by
  cases i with
  | rdCtrl => exact .inl ⟨.ctrl, rfl⟩
  | rdStatus => exact .inl ⟨.status, rfl⟩
  | rdTstart => exact .inl ⟨.tstart, rfl⟩
  | rdTend => exact .inl ⟨.tend, rfl⟩
  | rdWidth => exact .inl ⟨.width, rfl⟩
  | rdCount => exact .inl ⟨.count, rfl⟩
  | rdCal0 => exact .inl ⟨.cal0, rfl⟩
  | rdCal180 => exact .inl ⟨.cal180, rfl⟩
  | rdAngle => exact .inl ⟨.angle, rfl⟩
  | rdCmp => exact .inl ⟨.cmp, rfl⟩
  | rdCmplo => exact .inl ⟨.cmplo, rfl⟩
  | rdCmphi => exact .inl ⟨.cmphi, rfl⟩
  | wrCtrl data => exact .inr (.inl ⟨.ctrl, data, rfl⟩)
  | wrStatus data => exact .inr (.inl ⟨.status, data, rfl⟩)
  | wrTstart data => exact .inr (.inl ⟨.tstart, data, rfl⟩)
  | wrTend data => exact .inr (.inl ⟨.tend, data, rfl⟩)
  | wrWidth data => exact .inr (.inl ⟨.width, data, rfl⟩)
  | wrCount data => exact .inr (.inl ⟨.count, data, rfl⟩)
  | wrCal0 data => exact .inr (.inl ⟨.cal0, data, rfl⟩)
  | wrCal180 data => exact .inr (.inl ⟨.cal180, data, rfl⟩)
  | wrAngle data => exact .inr (.inl ⟨.angle, data, rfl⟩)
  | wrCmp data => exact .inr (.inl ⟨.cmp, data, rfl⟩)
  | wrCmplo data => exact .inr (.inl ⟨.cmplo, data, rfl⟩)
  | wrCmphi data => exact .inr (.inl ⟨.cmphi, data, rfl⟩)
  | tick | rise | fall | reset => simp

theorem decode_encode (i : Instr) : decode (encode i) = .instr i := by
  rcases i.forms with ⟨r, rfl⟩ | ⟨r, data, rfl⟩ | rfl | rfl | rfl | rfl
  · rw [encode_rd, decode_rdInput]
  · rw [encode_wr, decode_wrInput]
  all_goals rfl

/-- Only a write carries a DATA word; elsewhere the encoder writes 0 (R88, R94). -/
theorem encode_data_of_not_hasData {i : Instr} (h : hasData (encode i).desc = false) : (encode i).data = 0 := by
  rcases i.forms with ⟨r, rfl⟩ | ⟨r, data, rfl⟩ | rfl | rfl | rfl | rfl
  · rw [encode_rd]
    rfl
  · have hdata : hasData (r.wrInput data).desc = true := beq_iff_eq.mpr (Input.cls_descriptor _ _ _ data)
    rw [encode_wr, hdata] at h
    cases h
  all_goals rfl

/-- The bytes of an input, at the head of any stream, read back as the input (R94). -/
theorem Input.ofBytes_toBytes {i : Input} (h : hasData i.desc = false → i.data = 0) (rest : List Byte) :
    Input.ofBytes (i.toBytes ++ rest) = some (i, rest) := by
  have hdesc : i.desc.extractLsb' 8 8 ++ i.desc.extractLsb' 0 8 = i.desc := BitVec.extractLsb'_append_extractLsb'
  have hdata : i.data.extractLsb' 24 8 ++ i.data.extractLsb' 16 8 ++ i.data.extractLsb' 8 8 ++
      i.data.extractLsb' 0 8 = i.data := by
    rw [BitVec.extractLsb'_append_extractLsb'_eq_extractLsb' (start₁ := 16) (start₂ := 24) (len₁ := 8) rfl,
      BitVec.extractLsb'_append_extractLsb'_eq_extractLsb' (start₁ := 8) (start₂ := 16) (len₁ := 8) rfl]
    exact BitVec.extractLsb'_append_extractLsb'
  cases hd : hasData i.desc with
  | true => simp [Input.toBytes, Input.ofBytes, hdesc, hdata, hd]
  | false => simp [Input.toBytes, Input.ofBytes, hdesc, hd, ← h hd]

/-- Settles O2: the decoder inverts the encoder, and a stream of bytes gives back the input at its head. -/
theorem decodeOfEncode : Obligations.DecodeOfEncode := by
  unfold Obligations.DecodeOfEncode
  intro i rest
  refine ⟨decode_encode i, ?_⟩
  unfold decodeBytes
  rw [Input.ofBytes_toBytes encode_data_of_not_hasData, Option.map_some]
  simp only [decode_encode]

/-! ## What decodes to an instruction -/

/-- An input that decodes is the encoding of its instruction, but for a DATA that is not read. -/
theorem desc_eq_of_decode {inp : Input} {i : Instr} (h : decode inp = .instr i) :
    inp.desc = (encode i).desc ∧ (hasData inp.desc = true → inp.data = (encode i).data) := by
  by_cases hrsv : inp.rsv = 0#4
  · have hdesc := inp.desc_eq_descriptor hrsv
    have hdata : hasData inp.desc = (inp.cls == 0b01#2) := rfl
    rcases inp.cls_cases with hc | hc | hc | hc <;> rw [hc] at hdesc hdata
    · rw [decode_of_read hrsv hc, decodeAccess_eq_instr_iff] at h
      obtain ⟨hsz, r, hr, rfl⟩ := h
      rw [hdata, hdesc, hsz, ← hr, if_pos rfl, encode_rd]
      exact ⟨rfl, fun h => absurd h (by decide)⟩
    · rw [decode_of_write hrsv hc, decodeAccess_eq_instr_iff] at h
      obtain ⟨hsz, r, hr, rfl⟩ := h
      rw [hdesc, hsz, ← hr, if_neg (by decide), encode_wr]
      exact ⟨rfl, fun _ => rfl⟩
    · rw [decode_of_event hrsv hc, decodeEvent_eq_instr_iff, eventOf_eq_some_iff] at h
      obtain ⟨hsz, he⟩ := h
      rw [hdata, hdesc, hsz]
      rcases he with ⟨hlo, rfl⟩ | ⟨hlo, rfl⟩ | ⟨hlo, rfl⟩ <;> rw [hlo] <;>
        exact ⟨rfl, fun h => absurd h (by decide)⟩
    · rw [decode_of_rst hrsv hc, decodeRst_eq_instr_iff] at h
      obtain ⟨hsz, hlo, rfl⟩ := h
      rw [hdata, hdesc, hsz, hlo]
      exact ⟨rfl, fun h => absurd h (by decide)⟩
  · cases (decode_of_reserved hrsv).symm.trans h

/-- Settles O3: the fields that the decoder checks are all the fields of the descriptor. -/
theorem oneDescriptorPerInput : Obligations.OneDescriptorPerInput := by
  unfold Obligations.OneDescriptorPerInput
  exact fun _ _ => desc_eq_of_decode

/-! ## The checks of well-formedness -/

theorem encode_wellFormed (i : Instr) : (encode i).wellFormed = true := by
  rcases i.forms with ⟨r, rfl⟩ | ⟨r, data, rfl⟩ | rfl | rfl | rfl | rfl
  · rw [encode_rd]
    cases r <;> rfl
  · rw [encode_wr]
    exact Laws.EncodedWellFormed.wellFormed_wrInput r data
  all_goals rfl

/-- The checks read the descriptor alone (R88). -/
theorem Input.wellFormed_congr {i j : Input} (h : i.desc = j.desc) : i.wellFormed = j.wellFormed := by
  obtain ⟨d, data⟩ := i
  obtain ⟨d', data'⟩ := j
  cases h
  rfl

theorem Input.isAccess_eq (i : Input) : i.isAccess = !i.cls.getLsbD 1 := by
  simp [Input.isAccess, Input.cls]

theorem Input.sz_of_sizeOk {i : Input} (h : i.sizeOk = true) : i.sz = if i.isAccess then 2#2 else 0#2 :=
  beq_iff_eq.mp h

theorem Input.exists_reg_of_mapped {i : Input} (ha : i.isAccess = true) (h : i.mapped = true) :
    ∃ r : Reg, r.off = i.lo := by
  rw [Input.mapped, ha] at h
  exact Input.mem_mappedOffsets_iff.mp (List.contains_iff_mem.mp h)

theorem Input.exists_event_of_codeAssigned {i : Input} (hc : i.cls = 0b10#2) (h : i.codeAssigned = true) :
    ∃ e, eventOf i.lo = some e := by
  have hclass : i.desc.extractLsb' 14 2 = 2#2 := hc
  rw [Input.codeAssigned, hclass] at h
  have hmem : i.lo ∈ [0x01#8, 0x02#8, 0x03#8] := List.contains_iff_mem.mp h
  rw [← Option.isSome_iff_exists, Option.isSome_iff_ne_none]
  exact fun hnone => eventOf_eq_none_iff.mp hnone hmem

theorem Input.lo_of_rstLowZero {i : Input} (hc : i.cls = 0b11#2) (h : i.rstLowZero = true) : i.lo = 0#8 := by
  have hclass : i.desc.extractLsb' 14 2 = 3#2 := hc
  rw [Input.rstLowZero, hclass] at h
  exact beq_iff_eq.mp h

/-- An input that passes the checks meets, in its class, what the decoder asks for. -/
theorem exists_decode_of_wellFormed {i : Input} (h : i.wellFormed = true) : ∃ j, decode i = .instr j := by
  simp only [Input.wellFormed, Bool.and_eq_true] at h
  obtain ⟨⟨⟨⟨⟨hreserved, hsize⟩, -⟩, hmapped⟩, hcode⟩, hlow⟩ := h
  have hrsv : i.rsv = 0#4 := beq_iff_eq.mp hreserved
  have hsz := Input.sz_of_sizeOk hsize
  have hacc := i.isAccess_eq
  rcases i.cls_cases with hc | hc | hc | hc <;> rw [hc] at hacc
  · rw [decode_of_read hrsv hc]
    obtain ⟨r, hr⟩ := Input.exists_reg_of_mapped hacc hmapped
    rw [hacc] at hsz
    exact ⟨_, decodeAccess_of_mapped hsz hr⟩
  · rw [decode_of_write hrsv hc]
    obtain ⟨r, hr⟩ := Input.exists_reg_of_mapped hacc hmapped
    rw [hacc] at hsz
    exact ⟨_, decodeAccess_of_mapped hsz hr⟩
  · rw [decode_of_event hrsv hc]
    obtain ⟨e, he⟩ := Input.exists_event_of_codeAssigned hc hcode
    rw [hacc] at hsz
    exact ⟨e, decodeEvent_eq_instr_iff.mpr ⟨hsz, he⟩⟩
  · rw [decode_of_rst hrsv hc]
    rw [hacc] at hsz
    exact ⟨_, decodeRst_eq_instr_iff.mpr ⟨hsz, Input.lo_of_rstLowZero hc hlow, rfl⟩⟩

/-- Settles O4: an input that decodes has the descriptor of an encoding, which passes the checks, and they
ask for no less than the decoder. -/
theorem wellFormedInputsDecode : Obligations.WellFormedInputsDecode := by
  unfold Obligations.WellFormedInputsDecode
  refine fun inp => ⟨fun ⟨i, hi⟩ => ?_, exists_decode_of_wellFormed⟩
  obtain ⟨hdesc, -⟩ := desc_eq_of_decode hi
  rw [Input.wellFormed_congr hdesc]
  exact encode_wellFormed i

/-- Settles O1: twelve words written out, each decoded by evaluation. -/
theorem tableWordsDecode : Obligations.TableWordsDecode := by
  unfold Obligations.TableWordsDecode
  decide

end Sys2Proof

namespace Sys2Proof.Machine

/-! ## Illegal accesses and malformed descriptors -/

/-- Settles O5: the decoder checks size, alignment and mapping in this order, and a bus error only answers. -/
theorem illegalAccessAnswersBusError : Obligations.IllegalAccessAnswersBusError := by
  unfold Obligations.IllegalAccessAnswersBusError
  refine ⟨fun d data s hacc hrsv => ?_, rfl, rfl, rfl⟩
  have hdecode : decode ⟨d, data⟩ = decodeAccess (!d.getLsbD 14) ⟨d, data⟩ := decode_of_access hrsv hacc
  have answer {why : BusErrorReason}
      (h : decodeAccess (!d.getLsbD 14) ⟨d, data⟩ = .busError (!d.getLsbD 14) ⟨why, d.extractLsb' 0 8⟩) :
      present ⟨d, data⟩ s = .next { s with
        resp := ⟨if d.getLsbD 14 then none else some 0, some ⟨why, d.extractLsb' 0 8⟩, none⟩ } := by
    rw [present_of_busError (hdecode.trans h)]
    cases d.getLsbD 14 <;> rfl
  refine ⟨fun hsz => answer (decodeAccess_of_size hsz),
    fun hsz halign => answer (decodeAccess_of_misaligned hsz ?_),
    fun hsz halign hmap => answer (decodeAccess_of_unmapped hsz ?_ hmap)⟩
  · rwa [Input.extractLsb'_lo]
  · rwa [Input.extractLsb'_lo]

/-- A malformed input is refused, and a run goes on from the same block state with nothing on the bus (R202). -/
theorem refused_of_malformed {i : Input} {m : Malformed} (h : decode i = .malformed m) (s : State) :
    present i s = .refused (refusalOf m) ∧ ((RunRecord.mk s none).present i).state = s.respond .quiet := by
  have hp := present_of_malformed h s
  exact ⟨hp, by simp only [RunRecord.present, hp]⟩

/-- Settles O6: reserved bits decide first, then in an event or a reset the size, then the low byte. -/
theorem malformedDescriptorRefused : Obligations.MalformedDescriptorRefused := by
  unfold Obligations.MalformedDescriptorRefused
  intro d data s refuses
  have refused (m : Malformed) (h : decode ⟨d, data⟩ = .malformed m) : refuses (refusalOf m) :=
    refused_of_malformed h s
  refine ⟨fun hrsv => refused .reservedBits (decode_of_reserved hrsv),
    fun hrsv hbit hsz => refused .reservedBits ?_,
    fun hrsv hc hsz hlo => refused .unknownEvent ?_,
    fun hrsv hc hsz hlo => refused .reservedBits ?_⟩
  · rcases Input.cls_of_not_access (i := ⟨d, data⟩) hbit with hc | hc
    · rw [decode_of_event (i := ⟨d, data⟩) hrsv hc]
      exact decodeEvent_of_size hsz
    · rw [decode_of_rst (i := ⟨d, data⟩) hrsv hc]
      exact decodeRst_of_malformed (.inl hsz)
  · rw [decode_of_event (i := ⟨d, data⟩) hrsv hc]
    exact decodeEvent_of_unassigned hsz (eventOf_eq_none_iff.mpr hlo)
  · rw [decode_of_rst (i := ⟨d, data⟩) hrsv hc]
    exact decodeRst_of_malformed (.inr hlo)

end Sys2Proof.Machine

/-! # A ranging cycle: the ticks of a run, the trigger sequence they time, and the echo they measure -/

namespace Sys2Proof.Machine

section

variable {s t : State} {l : List Input}

/-! ## What an edge leaves unchanged, and what it captures -/

theorem State.edge_keeps (pol : Polarity) (s : State) :
    (s.edge pol).cnt = s.cnt ∧ (s.edge pol).tphase = s.tphase ∧ (s.edge pol).tcnt = s.tcnt ∧
    (s.edge pol).dir = s.dir ∧ (s.edge pol).sigOut = s.sigOut ∧ (s.edge pol).armed = s.armed := by
  rcases s.edge_changes pol with h | h | ⟨-, -, h⟩ | ⟨-, -, h⟩ <;> rw [h] <;> simp

/-- Before capture is armed no edge moves STATE (R119). -/
theorem State.edge_pulse_of_not_armed (pol : Polarity) (h : s.armed = false) : (s.edge pol).pulse = s.pulse := by
  rcases s.edge_changes pol with ht | ht | ⟨ha, -⟩ | ⟨ha, -⟩
  · rw [ht]
  · rw [ht]
  · cases h.symm.trans ha
  · cases h.symm.trans ha

/-- Under both values of EDGE_MODE a rising edge starts the measurement (R120, R121). -/
theorem State.edge_rising_of_idle (hline : s.envLvl = false) (harmed : s.armed = true) (hidle : s.pulse = .idle) :
    s.edge .rising = { s with envLvl := true, tstart := s.cnt.setWidth 32, pulse := .rising } := by
  simp [State.edge, State.capture, hline, harmed, hidle, Polarity.level, qualifies]

/-- Under both values of EDGE_MODE a falling edge ends it (R120, R121). -/
theorem State.edge_falling_of_rising (hline : s.envLvl = true) (harmed : s.armed = true)
    (hrising : s.pulse = .rising) :
    s.edge .falling = { s with envLvl := false, tend := s.cnt.setWidth 32, pulse := .done } := by
  simp [State.edge, State.capture, hline, harmed, hrising, Polarity.level, qualifies]

/-! ## A run, and what is kept along it -/

/-- An instruction's own input is performed in a run as it is by itself. -/
theorem RunRecord.present_encode {i : Instr} {r : RunRecord} (h : exec i r.state = .next t) :
    r.present (encode i) = ⟨t, r.mark⟩ := by
  unfold RunRecord.present
  rw [present_of_instr (decode_encode i), h]

/-- Induction over a run whose inputs all have a property `Q`. -/
theorem RunRecord.induct_of_forall {Q : Input → Prop} {P : State → Prop}
    (answer : ∀ s q, P s → P (s.respond q))
    (next : ∀ s t i, P s → Q i → Machine.present i s = .next t → P t) (l : List Input) :
    ∀ r : RunRecord, P r.state → (∀ i ∈ l, Q i) → P (r.presentAll l).state := by
  induction l with
  | nil => exact fun r h _ => h
  | cons i l ih =>
    intro r h hl
    refine ih (r.present i) ?_ fun j hj => hl j (List.mem_cons_of_mem i hj)
    rcases r.present_cases i with ⟨t, hp, hr⟩ | ⟨why, -, hr⟩ <;> rw [hr]
    · exact next _ _ _ h (hl i List.mem_cons_self) hp
    · exact answer _ _ h

/-! ## The counter along a run -/

/-- Without a `RESET` the counter goes down by the ticks of the run, modulo 2²⁴ (R110, R111). -/
theorem RunRecord.cnt_presentAll {r : RunRecord} (hl : ∀ i ∈ l, restarts i = false) :
    (r.presentAll l).state.cnt = r.state.cnt - BitVec.ofNat 24 (tickCount l) := by
  have h := RunRecord.induct_ticks (fun n t => t.cnt = r.state.cnt - BitVec.ofNat 24 n)
    (fun _ _ _ h => h) ?next l r 0 (by simp) hl
  case next =>
    intro n s t i hs hi hp
    rcases present_of_not_restarts hi hp with ⟨htick, hsame⟩ | ⟨htick, rfl⟩ | ⟨htick, -, pol, rfl⟩
    · obtain ⟨hcnt, -⟩ := hsame
      simpa [htick, hcnt] using hs
    · obtain ⟨hcnt, -⟩ := s.countTick.advanceSequencer_keeps
      simp only [htick, if_true, State.respond_cnt, hcnt, State.countTick_cnt, countDown_eq, hs]
      rw [BitVec.ofNat_add, BitVec.sub_sub]
      rfl
    · obtain ⟨hcnt, -⟩ := s.edge_keeps pol
      simpa [htick, hcnt] using hs
  simpa using h

/-! ## The trigger sequence along a run -/

/-- Where the trigger sequence of `p` pulse ticks stands `n` ticks after its `TRIGGER` (R112). -/
def State.SequenceAt (p n : Nat) (t : State) : Prop :=
  (n < p ∧ t.tphase = .pulse ∧ t.tcnt = p - n ∧ t.dir = .output ∧ t.sigOut = true ∧
    t.armed = false ∧ t.pulse = .idle) ∨
  (n = p ∧ t.tphase = .turn ∧ t.dir = .input ∧ t.sigOut = false ∧ t.armed = false ∧ t.pulse = .idle) ∨
  (p < n ∧ t.tphase = .off ∧ t.dir = .input ∧ t.sigOut = false ∧ t.armed = true)

section

variable {p n : Nat}

theorem State.SequenceAt.of_sameRanging (h : t.SequenceAt p n) (hu : SameRanging s t) : s.SequenceAt p n := by
  obtain ⟨-, hpulse, -, -, harmed, hphase, htcnt, hdir, hsig, -⟩ := hu
  simpa only [State.SequenceAt, hpulse, harmed, hphase, htcnt, hdir, hsig] using h

theorem State.SequenceAt.edge (pol : Polarity) (h : t.SequenceAt p n) : (t.edge pol).SequenceAt p n := by
  obtain ⟨-, hphase, htcnt, hdir, hsig, harmed⟩ := t.edge_keeps pol
  unfold State.SequenceAt at h ⊢
  rw [hphase, htcnt, hdir, hsig, harmed]
  rcases h with ⟨hn, hp, hc, hd, ho, ha, hi⟩ | ⟨hn, hp, hd, ho, ha, hi⟩ | h
  · exact .inl ⟨hn, hp, hc, hd, ho, ha, (State.edge_pulse_of_not_armed pol ha).trans hi⟩
  · exact .inr (.inl ⟨hn, hp, hd, ho, ha, (State.edge_pulse_of_not_armed pol ha).trans hi⟩)
  · exact .inr (.inr h)

/-- A tick moves the sequence on by one: down the pulse, to the turnaround, and to the armed capture. -/
theorem State.SequenceAt.advanceSequencer (h : t.SequenceAt p n) : t.advanceSequencer.SequenceAt p (n + 1) := by
  rcases h with ⟨hn, hp, hc, hd, ho, ha, hi⟩ | ⟨hn, hp, hd, ho, ha, hi⟩ | ⟨hn, hp, hd, ho, ha⟩
  · by_cases hlast : t.tcnt = 1
    · have ht : t.advanceSequencer = { t with tcnt := 0, sigOut := false, dir := .input, tphase := .turn } := by
        simp [State.advanceSequencer, hp, hlast]
      rw [ht]
      exact .inr (.inl ⟨by omega, rfl, rfl, rfl, ha, hi⟩)
    · have ht : t.advanceSequencer = { t with tcnt := t.tcnt - 1 } := by
        simp [State.advanceSequencer, hp, hlast]
      rw [ht]
      exact .inl ⟨by omega, hp, by simp only; omega, hd, ho, ha, hi⟩
  · have ht : t.advanceSequencer = { t with armed := true, tphase := .off } := by
      simp [State.advanceSequencer, hp]
    rw [ht]
    exact .inr (.inr ⟨by omega, rfl, hd, ho, rfl⟩)
  · have ht : t.advanceSequencer = t := by
      simp [State.advanceSequencer, hp]
    rw [ht]
    exact .inr (.inr ⟨by omega, hp, hd, ho, ha⟩)

theorem State.sequenceAt_trigger (s : State) : s.trigger.SequenceAt s.params.trigPulseTicks 0 :=
  .inl ⟨Nat.succ_pos _, rfl, rfl, rfl, rfl, rfl, rfl⟩

/-- Whatever other inputs fall between the ticks, the ticks alone move the sequence on (R112). -/
theorem RunRecord.sequenceAt_presentAll {r : RunRecord} (h : r.state.SequenceAt p 0)
    (hl : ∀ i ∈ l, restarts i = false) : (r.presentAll l).state.SequenceAt p (tickCount l) := by
  have hrun := RunRecord.induct_ticks (fun n t => t.SequenceAt p n) (fun _ _ _ h => h) ?next l r 0 h hl
  case next =>
    intro n s t i hs hi hp
    rcases present_of_not_restarts hi hp with ⟨htick, hsame⟩ | ⟨htick, rfl⟩ | ⟨htick, -, pol, rfl⟩ <;> rw [htick]
    · exact hs.of_sameRanging hsame
    · have hcount : s.countTick.SequenceAt p n := hs
      exact hcount.advanceSequencer
    · exact hs.edge pol
  rwa [Nat.zero_add] at hrun

end

/-! ## A run with no echo -/

/-- `t` stands where `s` does in the measurement: its STATE, its start and its line are those of `s`, and it is
ARMED if `s` is. -/
abbrev State.KeepsMeasurementOf (t s : State) : Prop :=
  t.pulse = s.pulse ∧ t.tstart = s.tstart ∧ t.envLvl = s.envLvl ∧ (s.armed = true → t.armed = true)

/-- Only an edge, a `TRIGGER` or a `RESET` moves the measurement on. -/
theorem State.KeepsMeasurementOf.present {u : State} {i : Input} (h : t.KeepsMeasurementOf s)
    (hi : restarts i = false) (hecho : isEcho i = false) (hu : present i t = .next u) :
    u.KeepsMeasurementOf s := by
  obtain ⟨hpulse, hstart, hline, harmed⟩ := h
  rcases present_of_not_restarts hi hu with ⟨-, hsame⟩ | ⟨-, rfl⟩ | ⟨-, hedge, -⟩
  · obtain ⟨-, kpulse, kstart, -, karmed, -, -, -, -, kline, -⟩ := hsame
    exact ⟨kpulse.trans hpulse, kstart.trans hstart, kline.trans hline, fun ha => karmed.trans (harmed ha)⟩
  · obtain ⟨-, kpulse, kstart, -, kline, -, karmed⟩ := t.countTick.advanceSequencer_keeps
    exact ⟨kpulse.trans hpulse, kstart.trans hstart, kline.trans hline, karmed ∘ harmed⟩
  · cases hecho.symm.trans hedge

theorem RunRecord.keepsMeasurementOf_presentAll (r : RunRecord)
    (hl : ∀ i ∈ l, restarts i = false ∧ isEcho i = false) :
    (r.presentAll l).state.KeepsMeasurementOf r.state :=
  RunRecord.induct_of_forall (P := fun t => t.KeepsMeasurementOf r.state) (fun _ _ h => h)
    (fun _ _ _ h ⟨hi, hecho⟩ hu => h.present hi hecho hu) l r ⟨rfl, rfl, rfl, id⟩ hl

/-! ## The width of an echo -/

/-- The width of a start and an end `k` ticks apart is `k` modulo 2²⁴ (R138, R141). -/
theorem pulseWidth_sub (c : Count) (k : Nat) :
    pulseWidth (c.setWidth 32).toNat ((c - BitVec.ofNat 24 k).setWidth 32).toNat = (k % 2 ^ 24 : Nat) := by
  have hc := c.isLt
  have hk : k % 2 ^ 24 < 2 ^ 24 := Nat.mod_lt _ (by decide)
  rw [BitVec.toNat_setWidth_of_le (by decide), BitVec.toNat_setWidth_of_le (by decide), BitVec.toNat_sub,
    BitVec.toNat_ofNat, pulseWidth, Config.counterRange]
  split <;> omega

/-- A trigger and its sequence with no echo end with capture armed and the measurement at IDLE. -/
theorem RunRecord.armed_of_trigger {r : RunRecord} (hl : ∀ i ∈ l, restarts i = false ∧ isEcho i = false)
    (hn : r.state.params.trigPulseTicks + 1 ≤ tickCount l) :
    let u := ((r.present (encode (.wrCtrl 1))).presentAll l).state
    u.armed = true ∧ u.pulse = .idle ∧ u.envLvl = r.state.envLvl := by
  have htrigger : r.present (encode (.wrCtrl 1)) = ⟨r.state.trigger.respond .quiet, r.mark⟩ :=
    RunRecord.present_encode (exec_wrCtrl 1 r.state)
  rw [htrigger]
  obtain ⟨hpulse, -, hline, -⟩ := RunRecord.keepsMeasurementOf_presentAll ⟨r.state.trigger.respond .quiet, r.mark⟩ hl
  rcases RunRecord.sequenceAt_presentAll (r := ⟨r.state.trigger.respond .quiet, r.mark⟩) r.state.sequenceAt_trigger
    (fun i hi => (hl i hi).1) with ⟨hlt, -⟩ | ⟨heq, -⟩ | ⟨-, -, -, -, harmed⟩
  · omega
  · omega
  · exact ⟨harmed, hpulse, hline⟩

theorem RunRecord.start_of_rise {r : RunRecord} (harmed : r.state.armed = true) (hidle : r.state.pulse = .idle)
    (hline : r.state.envLvl = false) :
    let t := (r.present (encode .rise)).state
    t.pulse = .rising ∧ t.tstart = t.cnt.setWidth 32 ∧ t.armed = true ∧ t.envLvl = true := by
  have h : r.present (encode .rise) = ⟨(r.state.edge .rising).respond .quiet, r.mark⟩ :=
    RunRecord.present_encode rfl
  rw [h, State.edge_rising_of_idle hline harmed hidle]
  exact ⟨rfl, rfl, harmed, rfl⟩

theorem RunRecord.end_of_fall {r : RunRecord} (harmed : r.state.armed = true) (hrising : r.state.pulse = .rising)
    (hline : r.state.envLvl = true) :
    let t := (r.present (encode .fall)).state
    t.pulse = .done ∧ t.tstart = r.state.tstart ∧ t.tend = r.state.cnt.setWidth 32 := by
  have h : r.present (encode .fall) = ⟨(r.state.edge .falling).respond .quiet, r.mark⟩ :=
    RunRecord.present_encode rfl
  rw [h, State.edge_falling_of_rising hline harmed hrising]
  exact ⟨rfl, rfl, rfl⟩

/-- Armed, in IDLE and with the line low, a rising edge, inputs with no echo and a falling edge end in DONE, with
the ticks between the edges as the width. -/
theorem RunRecord.width_of_echo {r : RunRecord} (harmed : r.state.armed = true) (hidle : r.state.pulse = .idle)
    (hline : r.state.envLvl = false) (hl : ∀ i ∈ l, restarts i = false ∧ isEcho i = false) :
    let t := (((r.present (encode .rise)).presentAll l).present (encode .fall)).state
    t.pulse = .done ∧ t.regView .width = BitVec.ofNat 32 (tickCount l % 2 ^ 24) := by
  obtain ⟨hrising, hstart, hstill, hhigh⟩ := RunRecord.start_of_rise harmed hidle hline
  obtain ⟨kpulse, kstart, kline, karmed⟩ := (r.present (encode .rise)).keepsMeasurementOf_presentAll hl
  obtain ⟨hdone, hlatched, hend⟩ :=
    RunRecord.end_of_fall (karmed hstill) (kpulse.trans hrising) (kline.trans hhigh)
  refine ⟨hdone, ?_⟩
  rw [RunRecord.cnt_presentAll fun i hi => (hl i hi).1] at hend
  rw [State.regView, hlatched, kstart, hstart, hend, pulseWidth_sub, BitVec.ofInt_natCast]

end

/-- Settles O44: the ticks before the echo arm capture with the measurement at IDLE, the rising edge latches
the counter, the ticks of the echo take it down, and the falling edge latches it again. -/
theorem rangingCycleMeasuresEcho : Obligations.RangingCycleMeasuresEcho := by
  unfold Obligations.RangingCycleMeasuresEcho
  intro s before during hline hsilent hticks
  obtain ⟨harmed, hidle, hlow⟩ := RunRecord.armed_of_trigger (r := ⟨s, none⟩)
    (fun x hx => hsilent x (List.mem_append_left _ hx)) hticks
  have hecho := RunRecord.width_of_echo harmed hidle (hlow.trans hline)
    fun x hx => hsilent x (List.mem_append_right _ hx)
  simp only [RunRecord.presentAll_append]
  obtain ⟨hdone, hwidth⟩ := hecho
  exact ⟨hdone, hwidth ▸ exec_rd .width _⟩

end Sys2Proof.Machine

/-! # The host's side: the wait for the echo, the width sequence, and the calibration -/

namespace Sys2Proof.Machine

section

variable {s t u : State} {limit : Option Nat} {n : Nat} {gap : List Input} {gaps : List (List Input)}

/-! ## The polls of a wait -/

/-- Inputs that all have a next state leave the state that a run over them does. -/
theorem RunRecord.presentAll_of_next {l : List Input} (h : Machine.presentAll l s = .next t) (mark : Option Refusal) :
    RunRecord.presentAll ⟨s, mark⟩ l = ⟨t, mark⟩ := by
  induction l generalizing s with
  | nil => cases h; rfl
  | cons i l ih =>
    rcases RunRecord.present_cases ⟨s, mark⟩ i with ⟨v, hp, hr⟩ | ⟨why, hp, -⟩
    · rw [presentAll_cons_of_next hp] at h
      exact (congrArg (·.presentAll l) hr).trans (ih h)
    · cases (presentAll_cons_of_refused hp l).symm.trans h

/-- A wait that ends with Ok or goes on has answered its first poll. -/
theorem presentAll_of_waitDone_cons
    (h : (∃ t, waitDone limit n (gap :: gaps) s = .ok t) ∨ ∃ t, waitDone limit n (gap :: gaps) s = .polling t) :
    ∃ u, presentAll (gap ++ [encode .rdStatus]) s = .next u := by
  cases hp : presentAll (gap ++ [encode .rdStatus]) s with
  | next u => exact ⟨u, rfl⟩
  | fault f => simp [waitDone, hp] at h
  | refused why => simp [waitDone, hp] at h

/-- A wait ends with Ok only in DONE (R96). -/
theorem pulse_done_of_waitDone_ok (h : waitDone limit n gaps s = .ok t) : t.pulse = .done := by
  induction gaps generalizing n s with
  | nil => cases h
  | cons gap gaps ih =>
    obtain ⟨u, hu⟩ := presentAll_of_waitDone_cons (.inl ⟨t, h⟩)
    rw [waitDone_cons hu] at h
    split at h
    · cases h
      assumption
    · split at h
      · cases h
      · exact ih h

/-- An unbounded wait that is still polling has left the limits above its polls unmet, so any further polls
continue the wait from there. -/
theorem waitDone_append (h : waitDone none n gaps s = .polling u)
    (hlimit : ∀ m, limit = some m → n + gaps.length < m) (more : List (List Input)) :
    waitDone limit n (gaps ++ more) s = waitDone limit (n + gaps.length) more u := by
  induction gaps generalizing n s with
  | nil => cases h; rfl
  | cons gap gaps ih =>
    obtain ⟨t, ht⟩ := presentAll_of_waitDone_cons (.inr ⟨u, h⟩)
    have hmore : limit ≠ some (n + 1) := by
      intro hl
      have := hlimit _ hl
      simp only [List.length_cons] at this
      omega
    have hlength : n + (gap :: gaps).length = n + 1 + gaps.length := by
      rw [List.length_cons]; omega
    rw [waitDone_cons ht] at h
    rw [List.cons_append, waitDone_cons ht, if_neg hmore, hlength]
    split at h
    · cases h
    · next hd =>
      rw [if_neg hd]
      rw [if_neg (by simp)] at h
      exact ih h fun m hm => hlength ▸ hlimit m hm

/-! ## The width sequence -/

theorem present_trigger (s : State) : present (encode (.wrCtrl 1)) s = .next (s.trigger.respond .quiet) :=
  (present_of_instr (decode_encode _) s).trans (exec_wrCtrl 1 s)

theorem presentAll_rdWidth (s : State) :
    presentAll [encode .rdWidth] s = .next (s.respond (.read (s.regView .width))) := rfl

section

variable {last : List Input} {v : State}

/-- After a wait that ended with Ok, `GETWIDTH` reads WIDTH (R97). -/
theorem getWidth_of_ok (hw : waitDone limit 0 gaps (s.trigger.respond .quiet) = .ok u)
    (hv : presentAll last u = .next v) :
    getWidth limit gaps last s = .ok (v.respond (.read (v.regView .width))) := by
  simp only [getWidth, present_trigger, hw, presentAll_append hv, presentAll_rdWidth]

/-- After NoEcho `GETWIDTH` ends as the wait did, with no read (R97). -/
theorem getWidth_of_noEcho (hw : waitDone limit 0 gaps (s.trigger.respond .quiet) = .noEcho u) :
    getWidth limit gaps last s = .noEcho u := by
  simp only [getWidth, present_trigger, hw]

theorem exists_of_getWidth_ok (h : getWidth limit gaps last s = .ok t) :
    ∃ u v, waitDone limit 0 gaps (s.trigger.respond .quiet) = .ok u ∧ presentAll last u = .next v ∧
      t = v.respond (.read (v.regView .width)) := by
  simp only [getWidth, present_trigger] at h
  cases hw : waitDone limit 0 gaps (s.trigger.respond .quiet) <;> simp only [hw, reduceCtorEq] at h
  case ok u =>
    cases hp : presentAll (last ++ [encode .rdWidth]) u <;> simp only [hp, reduceCtorEq] at h
    case next w =>
      obtain ⟨v, hv, hread⟩ := presentAll_split hp
      cases h
      exact ⟨u, v, rfl, hv, (Host.Outcome.next.inj hread).symm⟩

end

/-! ## A wait with no echo -/

/-- An input that a wait with no echo may meet: it is performed or answered with a bus error, and is no edge. -/
abbrev PassesWithoutEcho (i : Input) : Prop := isEcho i = false ∧ ∀ m, decode i ≠ .malformed m

/-- A `TRIGGER` and a `RESET` return STATE to IDLE (R123). -/
theorem pulse_idle_of_restarts {i : Input} (hi : restarts i = true) (h : present i s = .next t) :
    t.pulse = .idle := by
  rcases Bool.or_eq_true_iff.mp hi with htrigger | hreset
  · unfold isTrigger at htrigger
    split at htrigger
    · next data hd =>
      have hbit : trigBit data = true := htrigger
      rw [present_of_instr hd, exec_wrCtrl, hbit] at h
      cases h
      rfl
    · cases htrigger
  · rw [present_of_instr (beq_iff_eq.mp hreset)] at h
    cases h
    rfl

/-- STATE comes to DONE by an edge alone (R123). -/
theorem pulse_ne_done_of_present {i : Input} (hs : s.pulse ≠ .done) (hi : isEcho i = false)
    (h : present i s = .next t) : t.pulse ≠ .done := by
  cases hr : restarts i with
  | true => simp [pulse_idle_of_restarts hr h]
  | false =>
    have hkept : s.KeepsMeasurementOf s := ⟨rfl, rfl, rfl, id⟩
    obtain ⟨hpulse, -⟩ := hkept.present hr hi h
    rwa [hpulse]

theorem exists_exec_next (i : Instr) (s : State) : ∃ t, exec i s = .next t := by
  cases i <;> exact ⟨_, rfl⟩

theorem exists_next_of_passesWithoutEcho {i : Input} (hs : s.pulse ≠ .done) (hi : PassesWithoutEcho i) :
    ∃ t, present i s = .next t ∧ t.pulse ≠ .done := by
  obtain ⟨hecho, hwell⟩ := hi
  have hnext : ∃ t, present i s = .next t := by
    rcases present_cases i s with ⟨j, -, hp⟩ | ⟨isRead, e, -, hp⟩ | ⟨m, hm, -⟩
    · exact hp ▸ exists_exec_next j s
    · exact ⟨_, hp⟩
    · cases hwell m hm
  obtain ⟨t, ht⟩ := hnext
  exact ⟨t, ht, pulse_ne_done_of_present hs hecho ht⟩

theorem exists_presentAll_of_passesWithoutEcho {l : List Input} (hs : s.pulse ≠ .done)
    (hl : ∀ i ∈ l, PassesWithoutEcho i) : ∃ t, presentAll l s = .next t ∧ t.pulse ≠ .done := by
  induction l generalizing s with
  | nil => exact ⟨s, rfl, hs⟩
  | cons i l ih =>
    obtain ⟨t, ht, hd⟩ := exists_next_of_passesWithoutEcho hs (hl i List.mem_cons_self)
    rw [presentAll_cons_of_next ht]
    exact ih hd fun j hj => hl j (List.mem_cons_of_mem i hj)

theorem pollInputs_append (gaps more : List (List Input)) :
    pollInputs (gaps ++ more) = pollInputs gaps ++ pollInputs more := List.flatMap_append

/-- A poll is no edge, so the inputs of the wait pass as those between its polls do. -/
theorem passesWithoutEcho_of_mem_pollInputs (hq : ∀ gap ∈ gaps, ∀ i ∈ gap, PassesWithoutEcho i) :
    ∀ i ∈ pollInputs gaps, PassesWithoutEcho i := by
  intro i hi
  obtain ⟨gap, hgap, hmem⟩ := List.mem_flatMap.mp hi
  rcases List.mem_append.mp hmem with hmem | hmem
  · exact hq gap hgap i hmem
  · rw [List.mem_singleton.mp hmem]
    exact ⟨rfl, fun m => by rw [decode_encode]; nofun⟩

theorem exists_poll_of_noEcho (hs : s.pulse ≠ .done) (hq : ∀ i ∈ gap, PassesWithoutEcho i) :
    ∃ t, presentAll (gap ++ [encode .rdStatus]) s = .next t ∧ t.pulse ≠ .done := by
  have h := exists_presentAll_of_passesWithoutEcho hs
    (passesWithoutEcho_of_mem_pollInputs (gaps := [gap]) fun g hg => List.mem_singleton.mp hg ▸ hq)
  simpa [pollInputs] using h

/-- With no echo between its polls an unbounded wait is still polling after them (R203, R239). -/
theorem waitDone_none_of_noEcho (n : Nat) (hs : s.pulse ≠ .done)
    (hq : ∀ gap ∈ gaps, ∀ i ∈ gap, PassesWithoutEcho i) (hu : presentAll (pollInputs gaps) s = .next u) :
    waitDone none n gaps s = .polling u := by
  induction gaps generalizing n s with
  | nil => cases hu; rfl
  | cons gap gaps ih =>
    obtain ⟨t, ht, hd⟩ := exists_poll_of_noEcho hs (hq gap List.mem_cons_self)
    rw [pollInputs, List.flatMap_cons, presentAll_append ht] at hu
    rw [waitDone_cons ht, if_neg hd, if_neg (by simp)]
    exact ih (n + 1) hd (fun g hg => hq g (List.mem_cons_of_mem gap hg)) hu

/-- With no echo a wait with limit m ends with NoEcho at its m-th poll (R96). -/
theorem exists_noEcho_of_limit {m : Nat} (hs : s.pulse ≠ .done)
    (hq : ∀ gap ∈ gaps, ∀ i ∈ gap, PassesWithoutEcho i) (hm : m < gaps.length) :
    ∃ t, presentAll (pollInputs (gaps.take (m + 1))) s = .next t ∧ t.pulse ≠ .done ∧
      waitDone (some (m + 1)) 0 gaps s = .noEcho t := by
  have hsplit : gaps = gaps.take m ++ gaps[m] :: gaps.drop (m + 1) := by
    rw [← List.drop_eq_getElem_cons hm, List.take_append_drop]
  have hlength : 0 + (gaps.take m).length = m := by
    rw [List.length_take]; omega
  have hfirst : ∀ gap ∈ gaps.take m, ∀ i ∈ gap, PassesWithoutEcho i := fun g hg => hq g (List.mem_of_mem_take hg)
  obtain ⟨u, hu, hud⟩ := exists_presentAll_of_passesWithoutEcho hs (passesWithoutEcho_of_mem_pollInputs hfirst)
  obtain ⟨t, ht, htd⟩ := exists_poll_of_noEcho hud (hq gaps[m] (List.getElem_mem hm))
  have hpolling := waitDone_none_of_noEcho 0 hs hfirst hu
  refine ⟨t, ?_, htd, ?_⟩
  · rw [List.take_succ_eq_append_getElem hm, pollInputs_append, presentAll_append hu]
    simpa [pollInputs] using ht
  · rw [hsplit, waitDone_append hpolling (by intro l hl; cases hl; omega), hlength, waitDone_cons ht,
      if_neg htd, if_pos rfl]

/-- Polls with nothing between them change the answer alone. -/
theorem presentAll_pollInputs_of_nil (hgaps : ∀ gap ∈ gaps, gap = []) (hne : gaps ≠ []) :
    presentAll (pollInputs gaps) s = .next (s.respond (.read s.status)) := by
  induction gaps generalizing s with
  | nil => cases hne rfl
  | cons gap gaps ih =>
    rw [pollInputs, List.flatMap_cons, hgaps gap List.mem_cons_self, List.nil_append,
      presentAll_append (presentAll_rdStatus s)]
    cases gaps with
    | nil => rfl
    | cons next more => exact ih (fun g hg => hgaps g (List.mem_cons_of_mem gap hg)) (by simp)

end

/-- Settles O54: each poll of a wait ends it exactly where STATE is DONE, and after the last one the result
of the cycle is held up to the read of WIDTH. -/
theorem waitEndsOnlyAtDone : Obligations.WaitEndsOnlyAtDone := by
  unfold Obligations.WaitEndsOnlyAtDone
  refine ⟨fun limit n gaps s t => pulse_done_of_waitDone_ok, fun limit gaps more gap s u t hu hlimit ht hd => ?_,
    fun limit gaps last s => ⟨fun t ht => ?_, s.trigger.respond .quiet, exec_wrCtrl 1 s,
      fun u v => getWidth_of_ok, fun u => getWidth_of_noEcho⟩⟩
  · rw [waitDone_append hu (by simpa using hlimit), waitDone_cons ht, if_pos hd]
  · obtain ⟨u, v, hu, hv, rfl⟩ := exists_of_getWidth_ok ht
    refine ⟨rfl, fun hlast => ?_⟩
    have hheld : u.HoldsResultOf u := ⟨pulse_done_of_waitDone_ok hu, rfl, rfl, id⟩
    have hrun := State.HoldsResultOf.presentAll (r := ⟨u, none⟩) hheld hlast
    rw [RunRecord.presentAll_of_next hv] at hrun
    obtain ⟨hdone, -⟩ := hrun
    exact hdone

/-- Settles O55: STATE comes to DONE by an edge alone, so no poll of the wait meets it. -/
theorem noEchoWaitNeverSucceeds : Obligations.NoEchoWaitNeverSucceeds := by
  unfold Obligations.NoEchoWaitNeverSucceeds
  intro s gaps hs hq
  obtain ⟨u, hu, hd⟩ := exists_presentAll_of_passesWithoutEcho hs (passesWithoutEcho_of_mem_pollInputs hq)
  have hpolling := waitDone_none_of_noEcho 0 hs hq hu
  refine ⟨u, hu, hd, hpolling, fun m hm => ?_, fun m hpos hm => ?_⟩
  · have h := waitDone_append (limit := some m) hpolling (by simpa using hm) []
    rwa [List.append_nil] at h
  · obtain ⟨k, rfl⟩ := Nat.exists_eq_add_of_le' hpos
    obtain ⟨t, ht, htd, hend⟩ := exists_noEcho_of_limit hs hq hm
    refine ⟨t, ht, htd, hend, fun hnil => ?_⟩
    have hfirst : gaps.take (k + 1) ≠ [] := by
      rw [← List.length_pos_iff, List.length_take]
      omega
    have hpolls := presentAll_pollInputs_of_nil (s := s) (fun g hg => hnil g (List.mem_of_mem_take hg)) hfirst
    exact Host.Outcome.next.inj (ht.symm.trans hpolls)

/-! ## Calibration -/

/-- Settles O56: each line is one write, performed in every state, and the two halves of a loaded value are
the value. -/
theorem calibrationTouchPoints : Obligations.CalibrationTouchPoints := by
  unfold Obligations.CalibrationTouchPoints
  intro s live nudge
  refine ⟨⟨s.load (dataOf (live + nudge)), ?_, cmpHigh_append_cmpLow _, rfl, rfl⟩,
    ⟨({ s with cal0 := dataOf live } : State).respond .quiet, ?_, rfl, rfl, rfl, rfl⟩,
    ⟨({ s with cal180 := dataOf live } : State).respond .quiet, ?_, rfl, rfl, rfl, rfl⟩⟩
  all_goals exact presentAll_cons_of_next (present_of_instr (decode_encode _) s) []

end Sys2Proof.Machine

/-! # Ranging: the captures of a cycle, the sequence that arms them, and what each input answers -/

namespace Sys2Proof.Machine

section

variable {s t u : State} {i j : Input} {l : List Input}

/-! ## The trigger -/

theorem exec_wrCtrl_of_trigBit {data : Word} (h : trigBit data = true) (s : State) :
    exec (.wrCtrl data) s = .next (s.trigger.respond .quiet) := by
  rw [exec_wrCtrl, if_pos h]

/-! ## What moves STATE -/

/-- An edge that moves STATE was captured: it latched the counter as the start, or as the end (R121). -/
theorem State.edge_captures {pol : Polarity} (h : (s.edge pol).pulse ≠ s.pulse) :
    s.armed = true ∧
    ((s.pulse = .idle ∧ (s.edge pol).pulse = .rising ∧ (s.edge pol).tstart = s.cnt.setWidth 32 ∧
        (s.edge pol).tend = s.tend) ∨
      (s.pulse = .rising ∧ (s.edge pol).pulse = .done ∧ (s.edge pol).tend = s.cnt.setWidth 32 ∧
        (s.edge pol).tstart = s.tstart)) := by
  rcases s.edge_changes pol with ht | ht | ⟨harmed, hp, ht⟩ | ⟨harmed, hp, ht⟩ <;> rw [ht] at h ⊢
  · exact absurd rfl h
  · exact absurd rfl h
  · exact ⟨harmed, .inl ⟨hp, rfl, rfl, rfl⟩⟩
  · exact ⟨harmed, .inr ⟨hp, rfl, rfl, rfl⟩⟩

/-- Without a `TRIGGER` or a `RESET` only a captured edge moves STATE (R123). -/
theorem edge_of_present_of_pulse_ne (hi : restarts i = false) (h : present i s = .next t)
    (hne : t.pulse ≠ s.pulse) :
    isEcho i = true ∧ ∃ pol, t = (s.edge pol).respond .quiet ∧ (s.edge pol).pulse ≠ s.pulse := by
  rcases present_of_not_restarts hi h with ⟨-, hsame⟩ | ⟨-, rfl⟩ | ⟨-, hecho, pol, rfl⟩
  · obtain ⟨-, hpulse, -⟩ := hsame
    exact absurd hpulse hne
  · obtain ⟨-, hpulse, -⟩ := s.countTick.advanceSequencer_keeps
    exact absurd hpulse hne
  · exact ⟨hecho, pol, rfl, hne⟩

/-! ## The two captures of a cycle -/

/-- The input that takes STATE from IDLE to RISING latches the counter as the start. -/
theorem start_of_present (hidle : s.pulse = .idle) (h : present i s = .next t) (hrising : t.pulse = .rising) :
    t.tstart = s.cnt.setWidth 32 ∧ t.cnt = s.cnt := by
  cases hi : restarts i with
  | true => cases (pulse_idle_of_restarts hi h).symm.trans hrising
  | false =>
    obtain ⟨-, pol, rfl, hne⟩ := edge_of_present_of_pulse_ne hi h (by simp [hidle, hrising])
    obtain ⟨hcnt, -⟩ := s.edge_keeps pol
    obtain ⟨-, ⟨-, -, hstart, -⟩ | ⟨hp, -⟩⟩ := State.edge_captures hne
    · exact ⟨hstart, hcnt⟩
    · cases hidle.symm.trans hp

/-- The input that takes STATE from RISING to DONE latches the counter as the end. -/
theorem end_of_present (hrising : s.pulse = .rising) (h : present i s = .next t) (hdone : t.pulse = .done) :
    t.tend = s.cnt.setWidth 32 ∧ t.tstart = s.tstart := by
  cases hi : restarts i with
  | true => cases (pulse_idle_of_restarts hi h).symm.trans hdone
  | false =>
    obtain ⟨-, pol, rfl, hne⟩ := edge_of_present_of_pulse_ne hi h (by simp [hrising, hdone])
    obtain ⟨-, ⟨hp, -⟩ | ⟨-, -, hend, hstart⟩⟩ := State.edge_captures hne
    · cases hrising.symm.trans hp
    · exact ⟨hend, hstart⟩

/-- `t` is past the start capture of its cycle, whose count it holds as `s` does. -/
abbrev State.HoldsStartOf (t s : State) : Prop := t.pulse ≠ .idle ∧ t.tstart = s.tstart

/-- TSTART is latched in IDLE alone. -/
theorem State.HoldsStartOf.edge (pol : Polarity) (h : t.HoldsStartOf s) : (t.edge pol).HoldsStartOf s := by
  have ⟨hp, hstart⟩ := h
  rcases t.edge_changes pol with ht | ht | ⟨-, hidle, -⟩ | ⟨-, -, ht⟩
  · rwa [ht]
  · rwa [ht]
  · exact absurd hidle hp
  · rw [ht]
    exact ⟨nofun, hstart⟩

/-- Only a `TRIGGER` or a `RESET` returns to IDLE. -/
theorem State.HoldsStartOf.present (h : t.HoldsStartOf s) (hi : restarts i = false)
    (hu : present i t = .next u) : u.HoldsStartOf s := by
  rcases present_of_not_restarts hi hu with ⟨-, hsame⟩ | ⟨-, rfl⟩ | ⟨-, -, pol, rfl⟩
  · obtain ⟨hp, hstart⟩ := h
    obtain ⟨-, kpulse, kstart, -⟩ := hsame
    exact ⟨kpulse ▸ hp, kstart.trans hstart⟩
  · obtain ⟨hp, hstart⟩ := h
    obtain ⟨-, kpulse, kstart, -⟩ := t.countTick.advanceSequencer_keeps
    exact ⟨fun hidle => hp (kpulse.symm.trans hidle), kstart.trans hstart⟩
  · exact h.edge pol

theorem RunRecord.holdsStartOf_presentAll {r : RunRecord} (h : r.state.HoldsStartOf s)
    (hl : ∀ x ∈ l, restarts x = false) : (r.presentAll l).state.HoldsStartOf s :=
  RunRecord.induct_of_forall (P := fun t => t.HoldsStartOf s) (fun _ _ h => h)
    (fun _ _ _ h hi hu => h.present hi hu) l r h hl

/-- The two latches of a cycle are the counts at its captures, which differ by the ticks between them. -/
theorem latches_of_captures {s1 : State} (hidle : s.pulse = .idle) (hi : present i s = .next s1)
    (hrising : s1.pulse = .rising) (hl : ∀ x ∈ l, restarts x = false)
    (hstill : (RunRecord.presentAll ⟨s1, none⟩ l).state.pulse = .rising)
    (hj : present j (RunRecord.presentAll ⟨s1, none⟩ l).state = .next u) (hdone : u.pulse = .done) :
    u.tstart = s.cnt.setWidth 32 ∧ u.tend = (s.cnt - BitVec.ofNat 24 (tickCount l)).setWidth 32 := by
  obtain ⟨hstart, hcnt⟩ := start_of_present hidle hi hrising
  obtain ⟨-, hheld⟩ := RunRecord.holdsStartOf_presentAll (r := ⟨s1, none⟩) (s := s1)
    ⟨by simp [hrising], rfl⟩ hl
  obtain ⟨hend, hkept⟩ := end_of_present hstill hj hdone
  rw [RunRecord.cnt_presentAll hl, hcnt] at hend
  exact ⟨hkept.trans (hheld.trans hstart), hend⟩

/-- Fewer than 2²⁴ ticks take a count past 0, and so above itself, exactly where it is below their number. -/
theorem toNat_lt_toNat_sub_iff (c : Count) {k : Nat} (hk : k < 2 ^ 24) :
    (c.setWidth 32).toNat < ((c - BitVec.ofNat 24 k).setWidth 32).toNat ↔ (c.setWidth 32).toNat < k := by
  have hc := c.isLt
  rw [BitVec.toNat_setWidth_of_le (by decide), BitVec.toNat_setWidth_of_le (by decide), BitVec.toNat_sub,
    BitVec.toNat_ofNat]
  omega

end

/-- Settles O40: the `TRIGGER` begins the sequence, and along the run the ticks alone move it on. -/
theorem armsAfterPulseAndTurnaround : Obligations.ArmsAfterPulseAndTurnaround := by
  unfold Obligations.ArmsAfterPulseAndTurnaround
  intro s s1 data l hbit h hl
  obtain rfl := Host.Outcome.next.inj ((exec_wrCtrl_of_trigBit hbit s).symm.trans h)
  rcases RunRecord.sequenceAt_presentAll (r := ⟨s.trigger.respond .quiet, none⟩) s.sequenceAt_trigger hl with
    ⟨hn, hpulse⟩ | ⟨hn, hturn⟩ | ⟨hn, hoff⟩
  · exact ⟨fun _ => hpulse, by omega, by omega⟩
  · exact ⟨by omega, fun _ => hturn, by omega⟩
  · exact ⟨by omega, by omega, fun _ => hoff⟩

/-- Settles O42: the latches are the counts at the two captures, whose wrap-safe difference is the ticks. -/
theorem widthCountsTicksBetweenCaptures : Obligations.WidthCountsTicksBetweenCaptures := by
  unfold Obligations.WidthCountsTicksBetweenCaptures
  intro s s1 u i j l hidle hi hrising hl hstill hj hdone
  obtain ⟨hstart, hend⟩ := latches_of_captures hidle hi hrising hl hstill hj hdone
  have hwidth : u.regView .width = BitVec.ofNat 32 (tickCount l % 2 ^ 24) := by
    rw [State.regView, hstart, hend, pulseWidth_sub, BitVec.ofInt_natCast]
  exact hwidth ▸ exec_rd .width u

/-- Settles O43: the end latch is the start latch less the ticks, which wraps exactly where it would be
negative. -/
theorem wrapBranchIsOneUnderflow : Obligations.WrapBranchIsOneUnderflow := by
  unfold Obligations.WrapBranchIsOneUnderflow
  intro s s1 u i j l hidle hi hrising hl hk hstill hj hdone
  obtain ⟨hstart, hend⟩ := latches_of_captures hidle hi hrising hl hstill hj hdone
  rw [hstart, hend]
  exact toNat_lt_toNat_sub_iff s.cnt hk

/-- Settles O33: a `TRIGGER` or a `RESET` returns to IDLE, and otherwise only a captured edge moves STATE. -/
theorem pulseStateTransitions : Obligations.PulseStateTransitions := by
  unfold Obligations.PulseStateTransitions
  intro inp s t h
  refine ⟨fun hr => pulse_idle_of_restarts hr h, fun hne => ?_⟩
  cases hr : restarts inp with
  | true => exact .inl ⟨rfl, pulse_idle_of_restarts hr h⟩
  | false =>
    obtain ⟨hecho, pol, rfl, hmoved⟩ := edge_of_present_of_pulse_ne hr h hne
    exact .inr ⟨hecho, State.edge_captures hmoved⟩

/-- Port done is 1 exactly where STATE is DONE. -/
theorem State.donePort_iff (s : State) : s.donePort = true ↔ s.pulse = .done := beq_iff_eq

/-- Settles O36: DONE is entered from RISING by an edge and left by a `TRIGGER` or a `RESET` alone. -/
theorem donePortFollowsState : Obligations.DonePortFollowsState := by
  unfold Obligations.DonePortFollowsState
  intro inp s t h
  obtain ⟨hidle, hmoves⟩ := pulseStateTransitions inp s t h
  refine ⟨t.donePort_iff, fun hs ht => ?_, fun hs => ?_⟩
  · rw [← Bool.not_eq_true, State.donePort_iff] at hs
    rw [State.donePort_iff] at ht
    rcases hmoves (by rw [ht]; exact Ne.symm hs) with ⟨-, hp⟩ | ⟨hecho, -, ⟨-, hp, -⟩ | ⟨hp, -⟩⟩
    · cases ht.symm.trans hp
    · cases ht.symm.trans hp
    · exact ⟨hecho, hp⟩
  · rw [State.donePort_iff] at hs
    rw [← Bool.not_eq_true, State.donePort_iff]
    refine ⟨fun ht => ?_, fun hr => by simp [hidle hr]⟩
    rcases hmoves (by rwa [hs]) with ⟨hr, -⟩ | ⟨-, -, ⟨hp, -⟩ | ⟨hp, -⟩⟩
    · exact hr
    · cases hs.symm.trans hp
    · cases hs.symm.trans hp

end Sys2Proof.Machine

/-! # Ranging: the answers of the reads, the effects of the writes, and the events case by case -/

namespace Sys2Proof

/-! ## Decoding, whatever DATA stands beside a read or an event -/

theorem decode_read (r : Reg) (data : Word) : decode ⟨descriptor 0b00#2 2#2 r.off, data⟩ = .instr r.rd := by
  rw [decode_of_read (by simp) (by simp), decodeAccess_of_mapped (r := r) (by simp) (by simp), if_pos rfl]

theorem decode_event {code : Byte} {e : Instr} (h : eventOf code = some e) (data : Word) :
    decode ⟨descriptor 0b10#2 0#2 code, data⟩ = .instr e := by
  rw [decode_of_event (by simp) (by simp), decodeEvent_eq_instr_iff]
  simpa using h

end Sys2Proof

namespace Sys2Proof.Machine

section

variable {s t : State}

/-! ## The counter -/

/-- The value of a count after `n` ticks, the wrap included (R110). -/
theorem toNat_sub_ticks (c : Count) (n : Nat) :
    ((c - BitVec.ofNat 24 n).toNat : Int) = ((c.toNat : Int) - n) % 0x1000000 := by
  have hc := c.isLt
  rw [BitVec.toNat_sub, BitVec.toNat_ofNat]
  omega

theorem exists_presentAll_ticks (n : Nat) (s : State) :
    ∃ t, presentAll (HostLine.ticks n).expand s = .next t ∧ t.cnt = s.cnt - BitVec.ofNat 24 n := by
  induction n generalizing s with
  | zero => exact ⟨s, rfl, by simp⟩
  | succ n ih =>
    have htick : present (encode .tick) s = .next (s.countTick.advanceSequencer.respond .quiet) :=
      present_of_instr (decode_encode .tick) s
    obtain ⟨hcnt, -⟩ := s.countTick.advanceSequencer_keeps
    obtain ⟨t, ht, hc⟩ := ih (s.countTick.advanceSequencer.respond .quiet)
    refine ⟨t, (presentAll_cons_of_next htick _).trans ht, ?_⟩
    rw [hc, State.respond_cnt, hcnt, State.countTick_cnt, countDown_eq, BitVec.sub_sub, Nat.add_comm,
      BitVec.ofNat_add]
    rfl

/-! ## The latches and the width -/

/-- The upper byte of a word below 2²⁴ is 0. -/
theorem extractLsb'_upperByte_of_lt {w : Word} (h : w.toNat < 2 ^ 24) : w.extractLsb' 24 8 = 0#8 := by
  apply BitVec.eq_of_toNat_eq
  rw [BitVec.extractLsb'_toNat, Nat.shiftRight_eq_div_pow, Nat.div_eq_of_lt h]
  rfl

section

variable {a b : Word}

theorem pulseWidth_eq_emod (ha : a.toNat < 2 ^ 24) (hb : b.toNat < 2 ^ 24) :
    pulseWidth a.toNat b.toNat = ((a.toNat : Int) - b.toNat) % 2 ^ 24 := by
  unfold pulseWidth Config.counterRange
  split <;> omega

theorem toNat_ofInt_pulseWidth (ha : a.toNat < 2 ^ 24) (hb : b.toNat < 2 ^ 24) :
    ((BitVec.ofInt 32 (pulseWidth a.toNat b.toNat)).toNat : Int) = pulseWidth a.toNat b.toNat := by
  rw [BitVec.toNat_ofInt, pulseWidth_eq_emod ha hb]
  omega

/-- The low 24 bits of the difference of two words are their difference modulo 2²⁴. -/
theorem toNat_extractLsb'_sub (a b : Word) :
    (((a - b).extractLsb' 0 24).toNat : Int) = ((a.toNat : Int) - b.toNat) % 2 ^ 24 := by
  rw [BitVec.extractLsb'_toNat, Nat.shiftRight_zero, BitVec.toNat_sub]
  have ha := a.isLt
  have hb := b.isLt
  omega

end

/-! ## STATUS -/

/-- STATUS by the values of its three fields. -/
theorem State.status_eq {busy armed : Bool} {p : PulseState} (hbusy : s.tbusy = busy) (harmed : s.armed = armed)
    (hpulse : s.pulse = p) : s.status = (BitVec.ofBool busy ++ BitVec.ofBool armed ++ p.code).setWidth 32 := by
  rw [State.status, hbusy, harmed, hpulse]

theorem State.CycleArmed.pulse_idle (h : s.CycleArmed) (harmed : s.armed = false) : s.pulse = .idle := by
  by_contra hp
  cases harmed.symm.trans (h hp)

theorem State.Inv.not_armed_of_sequence (h : s.Inv) (hseq : s.tphase ≠ .off) : s.armed = false := by
  obtain ⟨-, -, -, harmed, -⟩ := h
  refine Bool.eq_false_iff.mpr fun ha => ?_
  obtain ⟨hoff, -⟩ := harmed ha
  exact hseq hoff

/-- In a trigger sequence STATUS shows TBUSY alone. -/
theorem State.Inv.status_of_sequence (h : s.Inv) (hcycle : s.CycleArmed) (hseq : s.tphase ≠ .off) :
    s.status = 0x8 := by
  have harmed := h.not_armed_of_sequence hseq
  rw [State.status_eq (s.tbusy_iff.mpr hseq) harmed (hcycle.pulse_idle harmed)]
  decide

/-- Outside a trigger sequence STATUS shows the state of the cycle. -/
theorem State.CycleArmed.status_of_off (hcycle : s.CycleArmed) (hoff : s.tphase = .off) :
    s.status = 0x0 ∨ s.status = 0x4 ∨ s.status = 0x5 ∨ s.status = 0x6 := by
  have hbusy : s.tbusy = false := by simp [State.tbusy, hoff]
  cases harmed : s.armed with
  | false => exact .inl (State.status_eq_zero hoff harmed (hcycle.pulse_idle harmed))
  | true =>
    cases hp : s.pulse with
    | idle => exact .inr (.inl (State.status_eq hbusy harmed hp))
    | rising => exact .inr (.inr (.inl (State.status_eq hbusy harmed hp)))
    | done => exact .inr (.inr (.inr (State.status_eq hbusy harmed hp)))

/-! ## The trigger sequencer, phase by phase -/

theorem State.advanceSequencer_of_lastPulseTick (hp : s.tphase = .pulse) (h1 : s.tcnt = 1) :
    s.advanceSequencer = { s with tcnt := 0, sigOut := false, dir := .input, tphase := .turn } := by
  simp [State.advanceSequencer, hp, h1]

theorem State.advanceSequencer_of_pulseTick (hp : s.tphase = .pulse) (h1 : s.tcnt ≠ 1) :
    s.advanceSequencer = { s with tcnt := s.tcnt - 1 } := by
  simp [State.advanceSequencer, hp, h1]

theorem State.advanceSequencer_of_turn (hp : s.tphase = .turn) :
    s.advanceSequencer = { s with armed := true, tphase := .off } := by
  simp [State.advanceSequencer, hp]

theorem State.advanceSequencer_of_off (hp : s.tphase = .off) : s.advanceSequencer = s := by
  simp [State.advanceSequencer, hp]

theorem exec_tick_of_sequencer (h : s.countTick.advanceSequencer = t) : exec .tick s = .next (t.respond .quiet) := by
  subst h
  rfl

/-! ## The edge detector, case by case -/

theorem exec_rise_of_edge (h : s.edge .rising = t) : exec .rise s = .next (t.respond .quiet) := by
  subst h
  rfl

theorem exec_fall_of_edge (h : s.edge .falling = t) : exec .fall s = .next (t.respond .quiet) := by
  subst h
  rfl

section

variable {pol : Polarity}

/-- A level that the line already has is no edge (R118). -/
theorem State.edge_of_level (h : s.envLvl = pol.level) : s.edge pol = s := by
  simp [State.edge, h]

/-- While capture is not armed an edge sets the line and nothing else (R119). -/
theorem State.edge_of_not_armed (ha : s.armed = false) : s.edge pol = { s with envLvl := pol.level } := by
  rcases s.edge_cases pol with ⟨hl, h⟩ | ⟨-, -, h⟩ | ⟨-, h, -⟩
  · rw [h, ← hl]
  · exact h
  · cases ha.symm.trans h

theorem State.edge_of_armed (hl : s.envLvl ≠ pol.level) (ha : s.armed = true) :
    s.edge pol = ({ s with envLvl := pol.level } : State).capture pol := by
  simp [State.edge, hl, ha]

/-- A qualifying edge in IDLE latches the start (R121). -/
theorem State.edge_of_idle (hl : s.envLvl ≠ pol.level) (ha : s.armed = true) (hp : s.pulse = .idle)
    (hq : qualifies s.params.edgeMode .idle pol = true) :
    s.edge pol = { s with envLvl := pol.level, tstart := s.cnt.setWidth 32, pulse := .rising } := by
  rw [State.edge_of_armed hl ha]
  simp [State.capture, hp, hq]

/-- A qualifying edge in RISING latches the end (R121). -/
theorem State.edge_of_rising (hl : s.envLvl ≠ pol.level) (ha : s.armed = true) (hp : s.pulse = .rising)
    (hq : qualifies s.params.edgeMode .rising pol = true) :
    s.edge pol = { s with envLvl := pol.level, tend := s.cnt.setWidth 32, pulse := .done } := by
  rw [State.edge_of_armed hl ha]
  simp [State.capture, hp, hq]

/-- An edge that does not qualify, or that comes in DONE, sets the line and nothing else (R120, R122). -/
theorem State.edge_of_ignored (hl : s.envLvl ≠ pol.level) (ha : s.armed = true)
    (h : s.pulse = .done ∨ qualifies s.params.edgeMode s.pulse pol = false) :
    s.edge pol = { s with envLvl := pol.level } := by
  rw [State.edge_of_armed hl ha]
  cases hp : s.pulse with
  | done => simp [State.capture]
  | idle | rising =>
    have hq := h.resolve_left (by simp [hp])
    rw [hp] at hq
    simp [State.capture, hq]

end

end

/-! ## The obligations -/

/-- Settles O15: each tick takes the counter down by one modulo 2²⁴, and a read answers it zero-extended. -/
theorem readCountGivesCounter : Obligations.ReadCountGivesCounter := by
  unfold Obligations.ReadCountGivesCounter
  intro s data
  have hview (t : State) : (t.cnt.setWidth 32).toNat = t.cnt.toNat := BitVec.toNat_setWidth_of_le (by decide)
  refine ⟨decode_read .count data, s.cnt.setWidth 32, exec_rd .count s, hview s, fun n => ?_⟩
  obtain ⟨t, ht, hc⟩ := exists_presentAll_ticks n s
  refine ⟨t, t.cnt.setWidth 32, ht, exec_rd .count t, ?_⟩
  rw [hview, hview, hc, toNat_sub_ticks]

/-- Settles O41, by induction on the ticks. -/
theorem counterRunsModuloRange : Obligations.CounterRunsModuloRange := by
  unfold Obligations.CounterRunsModuloRange
  intro s n
  obtain ⟨t, ht, hc⟩ := exists_presentAll_ticks n s
  exact ⟨t, ht, hc ▸ toNat_sub_ticks s.cnt n⟩

/-- Settles O32: in a sequence the invariant leaves ARMED 0 and STATE at IDLE, and outside one only an ARMED
cycle has left IDLE. -/
theorem statusReadsFiveValues : Obligations.StatusReadsFiveValues := by
  unfold Obligations.StatusReadsFiveValues
  intro s hinv hcycle
  refine ⟨s.status, exec_rd .status s, ?_⟩
  by_cases hoff : s.tphase = .off
  · rcases hcycle.status_of_off hoff with h | h | h | h <;> simp [h, hoff]
  · simp [hinv.status_of_sequence hcycle hoff, hoff]

/-- Settles O12: the fields of STATUS are those of its concatenation. -/
theorem readStatusGivesCycleState : Obligations.ReadStatusGivesCycleState := by
  unfold Obligations.ReadStatusGivesCycleState
  intro s data
  refine ⟨decode_read .status data, s.status, exec_rd .status s, ?_, s.status_armed, ?_, s.status_reserved⟩
  · rw [s.status_state]
    cases s.pulse <;> rfl
  · rw [s.status_tbusy]
    exact s.tbusy_iff

/-- Settles O13: the latches are read as they are, and the invariant keeps both below 2²⁴. -/
theorem readTimestampsGiveLatches : Obligations.ReadTimestampsGiveLatches := by
  unfold Obligations.ReadTimestampsGiveLatches
  intro s data
  refine ⟨decode_read .tstart data, decode_read .tend data, exec_rd .tstart s, exec_rd .tend s, ?_⟩
  rintro ⟨⟨hstart, hend⟩, -⟩
  exact ⟨extractLsb'_upperByte_of_lt hstart, extractLsb'_upperByte_of_lt hend⟩

/-- Settles O14: below 2²⁴ the formula of R138 fits the register. -/
theorem readWidthGivesPulseWidth : Obligations.ReadWidthGivesPulseWidth := by
  unfold Obligations.ReadWidthGivesPulseWidth
  intro s data hstart hend
  refine ⟨decode_read .width data, s.regView .width, exec_rd .width s, ?_⟩
  rw [State.regView, toNat_ofInt_pulseWidth hstart hend]
  simp [pulseWidth, Config.counterRange]

/-- Settles O16: the view of a write-only register is 0. -/
theorem writeOnlyRegistersReadZero : Obligations.WriteOnlyRegistersReadZero :=
  fun s data => ⟨decode_read .ctrl data, decode_read .angle data, exec_rd .ctrl s, exec_rd .angle s⟩

/-- Settles O19: each of the seven registers ignores its writes. -/
theorem writesToReadOnlyIgnored : Obligations.WritesToReadOnlyIgnored := by
  unfold Obligations.WritesToReadOnlyIgnored
  intro s data
  have hwrite (r : Reg) (hr : ignoresWrites r = true) :
      decode (r.wrInput data) = .instr (r.wr data) ∧ exec (r.wr data) s = .next (s.respond .quiet) :=
    ⟨decode_wrInput r data, exec_wr_of_ignoresWrites hr data s⟩
  exact ⟨hwrite .status rfl, hwrite .tstart rfl, hwrite .tend rfl, hwrite .width rfl, hwrite .count rfl,
    hwrite .cmplo rfl, hwrite .cmphi rfl⟩

/-- Settles O20: bit 0 of DATA decides between the `TRIGGER` and no change. -/
theorem triggerStartsCycle : Obligations.TriggerStartsCycle := by
  unfold Obligations.TriggerStartsCycle
  intro s data
  refine ⟨decode_wrInput .ctrl data, fun hbit => exec_wrCtrl_of_trigBit hbit s, fun hbit => ?_⟩
  have htrig : trigBit data = false := hbit
  rw [exec_wrCtrl, htrig]
  rfl

/-- Settles O25: one count down, and the sequencer's step in its phase. -/
theorem tickCountsAndSequences : Obligations.TickCountsAndSequences := by
  unfold Obligations.TickCountsAndSequences
  intro s data
  exact ⟨decode_event (code := 0x01#8) rfl data,
    fun hp h1 => exec_tick_of_sequencer (State.advanceSequencer_of_lastPulseTick hp h1),
    fun hp h2 => exec_tick_of_sequencer (State.advanceSequencer_of_pulseTick hp (Nat.ne_of_gt h2)),
    fun hp => exec_tick_of_sequencer (State.advanceSequencer_of_turn hp),
    fun hp => exec_tick_of_sequencer (State.advanceSequencer_of_off hp)⟩

/-- Settles O26: a rising edge qualifies in IDLE always and in RISING under BOTH alone. -/
theorem riseCapturesQualifyingEdge : Obligations.RiseCapturesQualifyingEdge := by
  unfold Obligations.RiseCapturesQualifyingEdge
  intro s data
  have hedge (h : s.envLvl = false) : s.envLvl ≠ Polarity.rising.level := by simp [h, Polarity.level]
  exact ⟨decode_event (code := 0x02#8) rfl data,
    fun hl => exec_rise_of_edge (State.edge_of_level hl),
    fun _ ha => exec_rise_of_edge (State.edge_of_not_armed ha),
    fun hl ha hp => exec_rise_of_edge (State.edge_rising_of_idle hl ha hp),
    fun hl ha hp hm => exec_rise_of_edge (State.edge_of_ignored (hedge hl) ha (.inr (by rw [hp, hm]; rfl))),
    fun hl ha hp hm => exec_rise_of_edge (State.edge_of_rising (hedge hl) ha hp (by rw [hm]; rfl)),
    fun hl ha hp => exec_rise_of_edge (State.edge_of_ignored (hedge hl) ha (.inl hp))⟩

/-- Settles O27: a falling edge qualifies in RISING always and in IDLE under BOTH alone. -/
theorem fallCapturesQualifyingEdge : Obligations.FallCapturesQualifyingEdge := by
  unfold Obligations.FallCapturesQualifyingEdge
  intro s data
  have hedge (h : s.envLvl = true) : s.envLvl ≠ Polarity.falling.level := by simp [h, Polarity.level]
  exact ⟨decode_event (code := 0x03#8) rfl data,
    fun hl => exec_fall_of_edge (State.edge_of_level hl),
    fun _ ha => exec_fall_of_edge (State.edge_of_not_armed ha),
    fun hl ha hp hm => exec_fall_of_edge (State.edge_of_ignored (hedge hl) ha (.inr (by rw [hp, hm]; rfl))),
    fun hl ha hp hm => exec_fall_of_edge (State.edge_of_idle (hedge hl) ha hp (by rw [hm]; rfl)),
    fun hl ha hp => exec_fall_of_edge (State.edge_falling_of_rising hl ha hp),
    fun hl ha hp => exec_fall_of_edge (State.edge_of_ignored (hedge hl) ha (.inl hp))⟩

/-- Settles O37: DIR decides who drives the line, and the invariant keeps SIG_OUT at 1 while the block does and
ARMED at 0 in a sequence. -/
theorem lineAndCaptureInSequence : Obligations.LineAndCaptureInSequence := by
  unfold Obligations.LineAndCaptureInSequence
  intro s hinv
  have ⟨_, hdir, hsig, _⟩ := hinv
  refine ⟨fun hout => ?_, fun hin => by rw [State.lineLevel, hin], fun hseq => ?_⟩
  · have hlevel : s.lineLevel = s.sigOut := by rw [State.lineLevel, hout]
    exact ⟨hlevel, hlevel.trans (hsig.mpr (hdir.mp hout))⟩
  · have harmed := hinv.not_armed_of_sequence hseq
    exact ⟨harmed, _, _, exec_rise_of_edge (State.edge_of_not_armed harmed),
      exec_fall_of_edge (State.edge_of_not_armed harmed), rfl, rfl⟩

/-- Settles O45: the wrap branch adds the modulus exactly where the difference is negative. -/
theorem pulseWidthIsModularDifference : Obligations.PulseWidthIsModularDifference := by
  unfold Obligations.PulseWidthIsModularDifference
  intro a b ha hb
  rw [toNat_extractLsb'_sub, pulseWidth_eq_emod ha hb]
  refine ⟨rfl, rfl, by omega, by omega, ?_, by decide, by decide⟩
  rintro rfl
  simp

/-- Settles O58: CLK_HZ is positive, so it cancels. -/
theorem referenceDistanceIsExact : Obligations.ReferenceDistanceIsExact := by
  unfold Obligations.ReferenceDistanceIsExact
  intro p width
  have hpos : (p.clkHz : Rat) ≠ 0 := Nat.cast_ne_zero.mpr (Nat.succ_ne_zero _)
  refine ⟨rfl, ?_, rfl, fun hdvd => ?_⟩
  · rw [distanceCm, seconds]
    ring
  · rw [distanceCm, Nat.cast_div hdvd (by norm_num)]
    field_simp
    norm_num

end Sys2Proof.Machine

/-! # The servo: the interpolation under both arithmetics, and the compare loads -/

namespace Sys2Proof.Machine

/-! ## Rounding a quotient, and truncating -/

namespace F64

/-- The quotient by a positive integer before it is rounded. -/
theorem val_div_natCast (a : F64) (d : Nat) :
    a.val / d = ((a.num : Int) : Rat) / ((2 ^ a.scale * d : Nat) : Rat) := by
  rw [val, div_div]
  push_cast
  rfl

theorem inRange_divNat {a : F64} {d : Nat} (hd : 0 < d) (h : |a.val / d| < 2 ^ 52) :
    InRange a.num.natAbs (2 ^ a.scale * d) := by
  have hpos : 0 < 2 ^ a.scale * d := Nat.mul_pos (Nat.two_pow_pos _) hd
  have hpos' : (0 : Rat) < (2 ^ a.scale * d : Nat) := Nat.cast_pos.mpr hpos
  refine ⟨hpos, ?_⟩
  rw [val_div_natCast, abs_div, abs_of_pos hpos', div_lt_iff₀ hpos'] at h
  have hnum : ((a.num.natAbs : Nat) : Rat) < 2 ^ 52 * (2 ^ a.scale * d : Nat) := by
    rwa [Nat.cast_natAbs, Int.cast_abs]
  exact_mod_cast hnum

theorem divNat_mono {a b : F64} {d : Nat} (hd : 0 < d) (ha : |a.val / d| < 2 ^ 52) (hb : |b.val / d| < 2 ^ 52)
    (h : a.val ≤ b.val) : (a.divNat d).val ≤ (b.divNat d).val := by
  refine val_ofQuot_mono (inRange_divNat hd ha) (inRange_divNat hd hb) ?_
  rw [val, val, div_le_div_iff₀ (by positivity) (by positivity)] at h
  have hnum : a.num * 2 ^ b.scale ≤ b.num * 2 ^ a.scale := by exact_mod_cast h
  push_cast
  rw [← mul_assoc, ← mul_assoc]
  exact mul_le_mul_of_nonneg_right hnum (Int.natCast_nonneg d)

theorem divNat_exact {a : F64} {d : Nat} {m : Int} {j : Nat} (hd : 0 < d) (ha : |a.val / d| < 2 ^ 52)
    (hm : m.natAbs < 2 ^ 53) (h : a.val / d = m / 2 ^ j) : (a.divNat d).val = m / 2 ^ j := by
  have hr := inRange_divNat hd ha
  rw [val_div_natCast, div_eq_div_iff (Nat.cast_ne_zero.mpr hr.1.ne') (by positivity)] at h
  exact val_ofQuot_exact hr hm (by exact_mod_cast h)

theorem ofInt_roundsTo {n : Int} (h : |(n : Rat)| < 2 ^ 52) : (ofInt n).RoundsTo n := by
  have hr : InRange n.natAbs 1 := inRange_of_abs_lt (s := 0) (by simpa using h)
  simpa [ofInt] using ofQuot_roundsTo hr

theorem divNat_roundsTo {a : F64} {d : Nat} (hd : 0 < d) (h : |a.val / d| < 2 ^ 52) :
    (a.divNat d).RoundsTo (a.val / d) := by
  rw [val_div_natCast]
  exact ofQuot_roundsTo (inRange_divNat hd h)

/-- The rounding of a quotient by a power of two, as a product and a sum make it. -/
theorem ofQuot_twoPow_roundsTo {n : Int} {s : Nat} (h : |(n : Rat) / 2 ^ s| < 2 ^ 52) :
    (ofQuot n (2 ^ s)).RoundsTo ((n : Rat) / 2 ^ s) := by
  have hround := ofQuot_roundsTo (inRange_of_abs_lt h)
  rwa [Nat.cast_pow, Nat.cast_ofNat] at hround

theorem mul_roundsTo {a b : F64} (h : |a.val * b.val| < 2 ^ 52) : (a.mul b).RoundsTo (a.val * b.val) := by
  rw [val_mul_val] at h ⊢
  exact ofQuot_twoPow_roundsTo h

theorem add_roundsTo {a b : F64} (h : |a.val + b.val| < 2 ^ 52) : (a.add b).RoundsTo (a.val + b.val) := by
  rw [val_add_val] at h ⊢
  exact ofQuot_twoPow_roundsTo h

theorem trunc_eq_ite (a : F64) : a.trunc = if 0 ≤ a.val then ⌊a.val⌋ else ⌈a.val⌉ := by
  split
  case isTrue h => exact trunc_eq_floor h
  case isFalse h => exact trunc_eq_ceil (not_le.mp h)

end F64

/-! ## Functions of the angle that run as the endpoints do -/

section

variable {α : Type} [LinearOrder α] {slope : Int} {f : Int → α}

/-- On the angles from 0 to 180 the function rises where the slope is positive, falls where it is negative, and is
constant where it is 0. -/
def MonoAlong (slope : Int) (f : Int → α) : Prop :=
  ∀ ⦃d e : Int⦄, 0 ≤ d → d ≤ 180 → 0 ≤ e → e ≤ 180 → slope * d ≤ slope * e → f d ≤ f e

/-- Every value of such a function lies between those at the two ends. -/
theorem MonoAlong.mem (h : MonoAlong slope f) {d : Int} (hd : 0 ≤ d) (hd' : d ≤ 180) :
    min (f 0) (f 180) ≤ f d ∧ f d ≤ max (f 0) (f 180) := by
  rcases le_total 0 slope with hup | hdown
  · exact ⟨(min_le_left _ _).trans (h le_rfl (by decide) hd hd' (mul_le_mul_of_nonneg_left hd hup)),
      (h hd hd' (by decide) le_rfl (mul_le_mul_of_nonneg_left hd' hup)).trans (le_max_right _ _)⟩
  · exact ⟨(min_le_right _ _).trans (h (by decide) le_rfl hd hd' (mul_le_mul_of_nonpos_left hd' hdown)),
      (h hd hd' le_rfl (by decide) (mul_le_mul_of_nonpos_left hd hdown)).trans (le_max_left _ _)⟩

end

/-! ## The stages of Interp_DOUBLE (R165)

Facts at the angles 0, 90 and 180 are stated once, at `90 * k` for `k` from 0 to 2: there no stage rounds. -/

/-- The rounded fraction of an angle. -/
def doubleFraction (d : Int) : F64 := (F64.ofInt d).divNat 180

/-- The rounded product of the endpoints' difference and the fraction. -/
def doubleProduct (m0 m180 d : Int) : F64 := (F64.ofInt (m180 - m0)).mul (doubleFraction d)

/-- The rounded sum, which the conversion truncates. -/
def doubleSum (m0 m180 d : Int) : F64 := (doubleProduct m0 m180 d).add (F64.ofInt m0)

theorem interpDouble_eq_trunc (m0 m180 d : Int) : interpDouble m0 m180 d = (doubleSum m0 m180 d).trunc := rfl

section

variable {d e k : Int}

theorem val_ofInt_angle (hd : 0 ≤ d) (hd' : d ≤ 180) : (F64.ofInt d).val = d := F64.val_ofInt (by omega)

theorem abs_angle_div_lt (hd : 0 ≤ d) (hd' : d ≤ 180) : |(F64.ofInt d).val / (180 : Nat)| < 2 ^ 52 := by
  have hlow : (0 : Rat) ≤ d := by exact_mod_cast hd
  have hhigh : (d : Rat) ≤ 180 := by exact_mod_cast hd'
  rw [val_ofInt_angle hd hd', abs_of_nonneg (by positivity)]
  push_cast
  linarith

theorem val_doubleFraction_mono (hd : 0 ≤ d) (hde : d ≤ e) (he : e ≤ 180) :
    (doubleFraction d).val ≤ (doubleFraction e).val := by
  refine F64.divNat_mono (by decide) (abs_angle_div_lt hd (hde.trans he)) (abs_angle_div_lt (hd.trans hde) he) ?_
  rw [val_ofInt_angle hd (hde.trans he), val_ofInt_angle (hd.trans hde) he]
  exact_mod_cast hde

theorem val_doubleFraction_ninety_mul (hk : 0 ≤ k) (hk' : k ≤ 2) : (doubleFraction (90 * k)).val = k / 2 := by
  have hexact : (doubleFraction (90 * k)).val = k / 2 ^ 1 := by
    refine F64.divNat_exact (by decide) (abs_angle_div_lt (by omega) (by omega)) (by omega) ?_
    rw [val_ofInt_angle (by omega) (by omega)]
    push_cast
    ring
  rwa [pow_one] at hexact

theorem val_doubleFraction_mem (hd : 0 ≤ d) (hd' : d ≤ 180) :
    0 ≤ (doubleFraction d).val ∧ (doubleFraction d).val ≤ 1 := by
  have hzero : (doubleFraction 0).val = 0 := by
    simpa using val_doubleFraction_ninety_mul (k := 0) le_rfl (by decide)
  have hone : (doubleFraction 180).val = 1 := by
    simpa using val_doubleFraction_ninety_mul (k := 2) (by decide) le_rfl
  exact ⟨hzero ▸ val_doubleFraction_mono le_rfl hd hd', hone ▸ val_doubleFraction_mono hd hd' le_rfl⟩

end

section

variable (cal0 cal180 : Word) {d k : Int}

theorem val_ofInt_endpoint (cal : Word) : (F64.ofInt cal.toNat).val = cal.toNat := by
  rw [F64.val_ofInt (by omega), Int.cast_natCast]

theorem val_ofInt_difference :
    (F64.ofInt (cal180.toNat - cal0.toNat)).val = (cal180.toNat : Rat) - cal0.toNat := by
  rw [F64.val_ofInt (by omega)]
  push_cast
  rfl

theorem abs_difference_lt : |(cal180.toNat : Rat) - cal0.toNat| < 2 ^ 32 := by
  have h0 : (cal0.toNat : Rat) < 2 ^ 32 := by exact_mod_cast cal0.isLt
  have h180 : (cal180.toNat : Rat) < 2 ^ 32 := by exact_mod_cast cal180.isLt
  have h0' : (0 : Rat) ≤ cal0.toNat := Nat.cast_nonneg _
  have h180' : (0 : Rat) ≤ cal180.toNat := Nat.cast_nonneg _
  exact abs_lt.mpr ⟨by linarith, by linarith⟩

theorem abs_difference_mul_fraction_lt (hd : 0 ≤ d) (hd' : d ≤ 180) :
    |(F64.ofInt (cal180.toNat - cal0.toNat)).val * (doubleFraction d).val| < 2 ^ 52 := by
  obtain ⟨hlow, hhigh⟩ := val_doubleFraction_mem hd hd'
  have hdiff := abs_difference_lt cal0 cal180
  rw [val_ofInt_difference, abs_mul, abs_of_nonneg hlow]
  have := mul_le_of_le_one_right (abs_nonneg ((cal180.toNat : Rat) - cal0.toNat)) hhigh
  linarith

/-- The product is monotone in the fraction, upward or downward as the endpoints run. -/
theorem val_doubleProduct_monoAlong :
    MonoAlong (cal180.toNat - cal0.toNat) fun d => (doubleProduct cal0.toNat cal180.toNat d).val := by
  intro d e hd hd' he he' h
  refine F64.mul_mono (abs_difference_mul_fraction_lt cal0 cal180 hd hd')
    (abs_difference_mul_fraction_lt cal0 cal180 he he') ?_
  rw [val_ofInt_difference]
  rcases lt_trichotomy cal0.toNat cal180.toNat with hup | heq | hdown
  · have hde : d ≤ e := le_of_mul_le_mul_left h (by omega)
    have hdiff : (0 : Rat) ≤ (cal180.toNat : Rat) - cal0.toNat := sub_nonneg.mpr (by exact_mod_cast hup.le)
    exact mul_le_mul_of_nonneg_left (val_doubleFraction_mono hd hde he') hdiff
  · simp [heq]
  · have hed : e ≤ d := (mul_le_mul_left_of_neg (by omega)).mp h
    have hdiff : (cal180.toNat : Rat) - cal0.toNat ≤ 0 := sub_nonpos.mpr (by exact_mod_cast hdown.le)
    exact mul_le_mul_of_nonpos_left (val_doubleFraction_mono he hed hd') hdiff

theorem val_doubleProduct_ninety_mul (hk : 0 ≤ k) (hk' : k ≤ 2) :
    (doubleProduct cal0.toNat cal180.toNat (90 * k)).val = ((cal180.toNat : Rat) - cal0.toNat) * k / 2 := by
  have hrange := abs_difference_mul_fraction_lt cal0 cal180 (d := 90 * k) (by omega) (by omega)
  have hshort : (((cal180.toNat : Int) - cal0.toNat) * k).natAbs < 2 ^ 53 := by
    rw [Int.natAbs_mul]
    exact lt_of_le_of_lt (Nat.mul_le_mul (show _ ≤ 2 ^ 32 by omega) (show k.natAbs ≤ 2 by omega)) (by decide)
  have hexact := F64.mul_exact (j := 1) hrange hshort (by
    rw [val_ofInt_difference, val_doubleFraction_ninety_mul hk hk']
    push_cast
    ring)
  rw [doubleProduct, hexact]
  push_cast
  ring

/-- The product lies between 0 and the endpoints' difference. -/
theorem abs_doubleProduct_le (hd : 0 ≤ d) (hd' : d ≤ 180) :
    |(doubleProduct cal0.toNat cal180.toNat d).val| ≤ |(cal180.toNat : Rat) - cal0.toNat| := by
  have hzero : (doubleProduct cal0.toNat cal180.toNat 0).val = 0 := by
    simpa using val_doubleProduct_ninety_mul cal0 cal180 (k := 0) le_rfl (by decide)
  have hfull : (doubleProduct cal0.toNat cal180.toNat 180).val = cal180.toNat - cal0.toNat := by
    simpa using val_doubleProduct_ninety_mul cal0 cal180 (k := 2) (by decide) le_rfl
  obtain ⟨hlow, hhigh⟩ := (val_doubleProduct_monoAlong cal0 cal180).mem hd hd'
  rw [hzero, hfull] at hlow hhigh
  refine abs_le.mpr ⟨le_trans ?_ hlow, hhigh.trans ?_⟩
  · exact le_min (neg_nonpos.mpr (abs_nonneg _)) (neg_abs_le _)
  · exact max_le (abs_nonneg _) (le_abs_self _)

theorem abs_doubleProduct_add_lt (hd : 0 ≤ d) (hd' : d ≤ 180) :
    |(doubleProduct cal0.toNat cal180.toNat d).val + (F64.ofInt cal0.toNat).val| < 2 ^ 52 := by
  have hprod := (abs_doubleProduct_le cal0 cal180 hd hd').trans_lt (abs_difference_lt cal0 cal180)
  have hcal : (cal0.toNat : Rat) < 2 ^ 32 := by exact_mod_cast cal0.isLt
  rw [val_ofInt_endpoint]
  refine (abs_add_le _ _).trans_lt ?_
  rw [Nat.abs_cast]
  linarith

theorem val_doubleSum_monoAlong :
    MonoAlong (cal180.toNat - cal0.toNat) fun d => (doubleSum cal0.toNat cal180.toNat d).val :=
  fun _ _ hd hd' he he' h =>
    F64.add_mono (abs_doubleProduct_add_lt cal0 cal180 hd hd') (abs_doubleProduct_add_lt cal0 cal180 he he')
      (add_le_add_left (val_doubleProduct_monoAlong cal0 cal180 hd hd' he he' h) _)

theorem val_doubleSum_ninety_mul (hk : 0 ≤ k) (hk' : k ≤ 2) :
    (doubleSum cal0.toNat cal180.toNat (90 * k)).val =
      ((cal0.toNat * (2 - k) + cal180.toNat * k : Int) : Rat) / 2 := by
  have hrange := abs_doubleProduct_add_lt cal0 cal180 (d := 90 * k) (by omega) (by omega)
  have hshort : ((cal0.toNat : Int) * (2 - k) + cal180.toNat * k).natAbs < 2 ^ 53 := by
    obtain rfl | rfl | rfl : k = 0 ∨ k = 1 ∨ k = 2 := by omega
    all_goals omega
  have hexact := F64.add_exact (j := 1) hrange hshort (by
    rw [val_doubleProduct_ninety_mul cal0 cal180 hk hk', val_ofInt_endpoint]
    push_cast
    ring)
  rw [doubleSum, hexact, pow_one]

/-- The sum at either end is an endpoint, so no sum is below 0. -/
theorem val_doubleSum_nonneg (hd : 0 ≤ d) (hd' : d ≤ 180) :
    0 ≤ (doubleSum cal0.toNat cal180.toNat d).val := by
  have hzero : (doubleSum cal0.toNat cal180.toNat 0).val = cal0.toNat := by
    simpa using val_doubleSum_ninety_mul cal0 cal180 (k := 0) le_rfl (by decide)
  have hfull : (doubleSum cal0.toNat cal180.toNat 180).val = cal180.toNat := by
    simpa using val_doubleSum_ninety_mul cal0 cal180 (k := 2) (by decide) le_rfl
  obtain ⟨hlow, -⟩ := (val_doubleSum_monoAlong cal0 cal180).mem hd hd'
  rw [hzero, hfull] at hlow
  exact (le_min (Nat.cast_nonneg _) (Nat.cast_nonneg _)).trans hlow

theorem interpDouble_eq_floor (hd : 0 ≤ d) (hd' : d ≤ 180) :
    interpDouble cal0.toNat cal180.toNat d = ⌊(doubleSum cal0.toNat cal180.toNat d).val⌋ := by
  rw [interpDouble_eq_trunc, F64.trunc_eq_floor (val_doubleSum_nonneg cal0 cal180 hd hd')]

/-! ## The interpolation, whichever its arithmetic -/

variable (arith : InterpArith)

/-- The interpolation is monotone in the angle, upward or downward as the endpoints run (R180). -/
theorem interp_monoAlong :
    MonoAlong (cal180.toNat - cal0.toNat) (interp arith cal0.toNat cal180.toNat) := by
  intro d e hd hd' he he' h
  cases arith with
  | exact => exact Int.ediv_le_ediv (by decide) (by linarith)
  | double =>
    simp only [interp]
    rw [interpDouble_eq_floor cal0 cal180 hd hd', interpDouble_eq_floor cal0 cal180 he he']
    exact Int.floor_mono (val_doubleSum_monoAlong cal0 cal180 hd hd' he he' h)

/-- The interpolation at the angles 0, 90 and 180 (R179, R181). -/
theorem interp_ninety_mul (hk : 0 ≤ k) (hk' : k ≤ 2) :
    interp arith cal0.toNat cal180.toNat (90 * k) = (cal0.toNat * (2 - k) + cal180.toNat * k) / 2 := by
  cases arith with
  | exact =>
    have hnum : (cal0.toNat : Int) * (180 - 90 * k) + cal180.toNat * (90 * k) =
        90 * (cal0.toNat * (2 - k) + cal180.toNat * k) := by ring
    simp only [interp, interpExact]
    rw [hnum]
    exact Int.mul_ediv_mul_of_pos _ 2 (by decide)
  | double =>
    simp only [interp]
    rw [interpDouble_eq_floor cal0 cal180 (by omega) (by omega), val_doubleSum_ninety_mul cal0 cal180 hk hk']
    exact_mod_cast Rat.floor_intCast_div_natCast _ 2

theorem interp_zero : interp arith cal0.toNat cal180.toNat 0 = cal0.toNat := by
  simpa using interp_ninety_mul cal0 cal180 arith (k := 0) le_rfl (by decide)

theorem interp_ninety : interp arith cal0.toNat cal180.toNat 90 = (cal0.toNat + cal180.toNat) / 2 := by
  simpa using interp_ninety_mul cal0 cal180 arith (k := 1) (by decide) (by decide)

theorem interp_oneEighty : interp arith cal0.toNat cal180.toNat 180 = cal180.toNat := by
  simpa using interp_ninety_mul cal0 cal180 arith (k := 2) (by decide) le_rfl

/-- The interpolation lies between the endpoints (R166). -/
theorem interp_mem (hd : 0 ≤ d) (hd' : d ≤ 180) :
    min (cal0.toNat : Int) cal180.toNat ≤ interp arith cal0.toNat cal180.toNat d ∧
      interp arith cal0.toNat cal180.toNat d ≤ max (cal0.toNat : Int) cal180.toNat := by
  have hmem := (interp_monoAlong cal0 cal180 arith).mem hd hd'
  rwa [interp_zero, interp_oneEighty] at hmem

end

/-- The target clamp gives the interpolation back (R166). -/
theorem angleTarget_eq_interp (arith : InterpArith) (cal0 cal180 data : Word) :
    angleTarget arith cal0 cal180 data = interp arith cal0.toNat cal180.toNat (clampedAngle data) := by
  obtain ⟨hd, hd'⟩ := clampedAngle_mem data
  obtain ⟨hlow, hhigh⟩ := interp_mem cal0 cal180 arith hd hd'
  exact clamp_of_mem hlow hhigh

/-- A target is between the endpoints, so the word that is loaded is the target itself. -/
theorem toNat_ofInt_angleTarget (arith : InterpArith) (cal0 cal180 data : Word) :
    ((BitVec.ofInt 32 (angleTarget arith cal0 cal180 data)).toNat : Int) = angleTarget arith cal0 cal180 data := by
  obtain ⟨hlow, hhigh⟩ : min (cal0.toNat : Int) cal180.toNat ≤ angleTarget arith cal0 cal180 data ∧
      angleTarget arith cal0 cal180 data ≤ max (cal0.toNat : Int) cal180.toNat := clamp_mem min_le_max
  rw [BitVec.toNat_ofInt]
  omega

/-! ## The writes of the servo unit -/

/-- A word put together from two halves (R167). -/
theorem toNat_append_halves (hi lo : Half) : (hi ++ lo).toNat = hi.toNat * 2 ^ 16 + lo.toNat := by
  rw [BitVec.toNat_append, ← Nat.shiftLeft_add_eq_or_of_lt lo.isLt, Nat.shiftLeft_eq]

theorem exec_wrCal0 (data : Word) (s : State) :
    exec (.wrCal0 data) s = .next (({ s with cal0 := data } : State).respond .quiet) := rfl

theorem exec_wrCal180 (data : Word) (s : State) :
    exec (.wrCal180 data) s = .next (({ s with cal180 := data } : State).respond .quiet) := rfl

theorem exec_wrCmp (data : Word) (s : State) : exec (.wrCmp data) s = .next (s.load data) := rfl

/-! ## The word that `WR ANGLE` loads -/

/-- The word that `WR ANGLE, DATA` loads in a state (R169). -/
def State.angleWord (data : Word) (s : State) : Word :=
  BitVec.ofInt 32 (angleTarget s.params.interpArith s.cal0 s.cal180 data)

theorem exec_wrAngle (data : Word) (s : State) : exec (.wrAngle data) s = .next (s.load (s.angleWord data)) := rfl

theorem State.toNat_angleWord (data : Word) (s : State) :
    ((s.angleWord data).toNat : Int) =
      interp s.params.interpArith s.cal0.toNat s.cal180.toNat (clampedAngle data) := by
  rw [State.angleWord, toNat_ofInt_angleTarget, angleTarget_eq_interp]

/-- DATA acts through the clamped angle alone (R163, R170). -/
theorem State.angleWord_congr {a b : Word} (h : clampedAngle a = clampedAngle b) (s : State) :
    s.angleWord a = s.angleWord b := by
  rw [State.angleWord, State.angleWord, angleTarget, angleTarget, h]

theorem State.angleWord_zero (s : State) : s.angleWord 0 = s.cal0 := by
  have hvalue := s.toNat_angleWord 0
  rw [show clampedAngle 0 = 0 by decide, interp_zero] at hvalue
  exact BitVec.eq_of_toNat_eq (by exact_mod_cast hvalue)

theorem State.angleWord_oneEighty (s : State) : s.angleWord 180 = s.cal180 := by
  have hvalue := s.toNat_angleWord 180
  rw [show clampedAngle 180 = 180 by decide, interp_oneEighty] at hvalue
  exact BitVec.eq_of_toNat_eq (by exact_mod_cast hvalue)

theorem clampedAngle_of_neg {data : Word} (h : data.toInt < 0) : clampedAngle data = 0 := if_pos h

theorem clampedAngle_of_gt {data : Word} (h : 180 < data.toInt) : clampedAngle data = 180 :=
  (if_neg (show ¬ data.toInt < 0 by omega)).trans (if_pos h)

/-! ## The loads among the inputs -/

/-- The instruction loads the compare fields: it is `WR ANGLE` or `WR CMP` (R167). -/
def IsLoad (i : Instr) : Prop := ∃ d, i = .wrAngle d ∨ i = .wrCmp d

theorem not_isLoad_rd (r : Reg) : ¬ IsLoad r.rd := by
  rintro ⟨d, h | h⟩ <;> cases r <;> cases h

theorem not_isLoad_wr_of_ignoresWrites {r : Reg} (hr : ignoresWrites r = true) (data : Word) :
    ¬ IsLoad (r.wr data) := by
  cases r with
  | angle | cmp => cases hr
  | _ => rintro ⟨d, h | h⟩ <;> cases h

/-- Performing an input is a load and emits its LoadEvent, or emits none. -/
theorem exec_load_cases {i : Instr} {s t : State} (h : exec i s = .next t) :
    (IsLoad i ∧ ∃ v, t = s.load v) ∨ (¬ IsLoad i ∧ t.resp.loaded = none) := by
  rcases exec_cases h with ⟨r, rfl, rfl⟩ | ⟨r, data, hr, rfl, rfl⟩ | ⟨data, rfl, -, rfl⟩ |
    ⟨data, rfl, -, rfl⟩ | ⟨data, rfl, rfl⟩ | ⟨data, rfl, rfl⟩ | ⟨data, rfl, rfl⟩ | ⟨data, rfl, rfl⟩ |
    ⟨rfl, rfl⟩ | ⟨pol, rfl, rfl⟩ | ⟨rfl, rfl⟩
  · exact .inr ⟨not_isLoad_rd r, rfl⟩
  · exact .inr ⟨not_isLoad_wr_of_ignoresWrites hr data, rfl⟩
  · exact .inr ⟨by simp [IsLoad], rfl⟩
  · exact .inr ⟨by simp [IsLoad], rfl⟩
  · exact .inr ⟨by simp [IsLoad], rfl⟩
  · exact .inr ⟨by simp [IsLoad], rfl⟩
  · exact .inl ⟨⟨data, .inl rfl⟩, _, rfl⟩
  · exact .inl ⟨⟨data, .inr rfl⟩, _, rfl⟩
  · exact .inr ⟨by simp [IsLoad], rfl⟩
  · exact .inr ⟨by cases pol <;> simp [IsLoad], rfl⟩
  · exact .inr ⟨by simp [IsLoad], rfl⟩

/-- A presented input that is answered loads exactly where it decodes to a load. -/
theorem present_load_cases {inp : Input} {s t : State} (h : present inp s = .next t) :
    ((∃ i, decode inp = .instr i ∧ IsLoad i) ∧ ∃ v, t = s.load v) ∨
    ((∀ i, decode inp = .instr i → ¬ IsLoad i) ∧ t.resp.loaded = none) := by
  rcases present_cases inp s with ⟨j, hd, hp⟩ | ⟨isRead, e, hd, hp⟩ | ⟨m, -, hp⟩
  · rcases exec_load_cases (hp.symm.trans h) with ⟨hload, ht⟩ | ⟨hload, ht⟩
    · exact .inl ⟨⟨j, hd, hload⟩, ht⟩
    · refine .inr ⟨fun i hi => ?_, ht⟩
      cases hd.symm.trans hi
      exact hload
  · cases hp.symm.trans h
    exact .inr ⟨fun i hi => (nomatch hd.symm.trans hi), rfl⟩
  · cases hp.symm.trans h

/-! ## The obligations -/

/-- Settles O24: under EXACT the interpolation is R164's formula, and the clamp and the 32 bits leave it. -/
theorem exactAngleLoadsInterpolation : Obligations.ExactAngleLoadsInterpolation := by
  unfold Obligations.ExactAngleLoadsInterpolation
  intro s data harith
  refine ⟨s.angleWord data, _, exec_wrAngle data s, rfl, cmpHigh_append_cmpLow _, ?_⟩
  have hvalue := s.toNat_angleWord data
  rw [harith] at hvalue
  exact hvalue

/-- Settles O35: an input either loads, and both fields are halves of the LoadEvent's value, or emits none. -/
theorem loadStrobeMarksEachLoad : Obligations.LoadStrobeMarksEachLoad := by
  unfold Obligations.LoadStrobeMarksEachLoad
  intro inp s t h
  rcases present_load_cases h with ⟨⟨i, hi, d, hload⟩, v, rfl⟩ | ⟨hnone, ht⟩
  · refine ⟨iff_of_true rfl ⟨d, ?_⟩, fun w hw => ?_⟩
    · rwa [hi, Decoded.instr.injEq, Decoded.instr.injEq]
    · obtain rfl : v = w := Option.some.inj hw
      rw [← toNat_append_halves]
      exact congrArg BitVec.toNat (cmpHigh_append_cmpLow v)
  · refine ⟨iff_of_false (by simp [State.cmpLoadPort, ht]) ?_, fun v hv => nomatch ht.symm.trans hv⟩
    rintro ⟨d, hd | hd⟩
    · exact hnone _ hd ⟨d, .inl rfl⟩
    · exact hnone _ hd ⟨d, .inr rfl⟩

/-- Settles O47: the numerator is 180 times a convex combination of the endpoints, and floor division by 180 is the
floor of the rational quotient. -/
theorem exactInterpolationIsFloor : Obligations.ExactInterpolationIsFloor := by
  unfold Obligations.ExactInterpolationIsFloor
  intro cal0 cal180 d hd hd'
  have hnonneg (cal : Word) {x : Int} (hx : 0 ≤ x) : 0 ≤ (cal.toNat : Int) * x :=
    mul_nonneg (Int.natCast_nonneg _) hx
  have hle (cal : Word) {x : Int} (hx : 0 ≤ x) : (cal.toNat : Int) * x ≤ (2 ^ 32 - 1) * x :=
    mul_le_mul_of_nonneg_right (by omega) hx
  have hrest : 0 ≤ 180 - d := by omega
  refine ⟨rfl, add_nonneg (hnonneg cal0 hrest) (hnonneg cal180 hd), ?_, ?_⟩
  · have h0 := hle cal0 hrest
    have h180 := hle cal180 hd
    linarith
  · rw [interpExact, ← Nat.cast_ofNat (R := Int) (n := 180), ← Rat.floor_intCast_div_natCast]
    congr 1
    push_cast
    ring

/-- Settles O48: every operation rounds one quotient of integers, and rounding a quotient in the range R165 meets
is to nearest even. -/
theorem doubleRoundsToNearestEven : Obligations.DoubleRoundsToNearestEven := by
  unfold Obligations.DoubleRoundsToNearestEven
  exact ⟨fun _ => F64.ofInt_roundsTo, fun _ _ => F64.divNat_roundsTo, fun _ _ => F64.mul_roundsTo,
    fun _ _ => F64.add_roundsTo, F64.trunc_eq_ite, fun _ _ _ => rfl, by decide, by decide⟩

/-- Settles O49: the interpolation lies between the endpoints. -/
theorem targetClampNeverActs : Obligations.TargetClampNeverActs := by
  unfold Obligations.TargetClampNeverActs
  intro arith cal0 cal180 d hd hd'
  obtain ⟨hlow, hhigh⟩ := interp_mem cal0 cal180 arith hd hd'
  exact ⟨clamp_of_mem hlow hhigh, hlow, hhigh, by omega, by omega⟩

/-- Settles O51: at the angles 0 and 180 neither arithmetic rounds. -/
theorem endpointAnglesLoadEndpoints : Obligations.EndpointAnglesLoadEndpoints := by
  unfold Obligations.EndpointAnglesLoadEndpoints
  intro s
  have h0 := exec_wrAngle 0 s
  have h180 := exec_wrAngle 180 s
  rw [s.angleWord_zero] at h0
  rw [s.angleWord_oneEighty] at h180
  exact ⟨_, _, h0, h180, rfl, cmpHigh_append_cmpLow _, rfl, cmpHigh_append_cmpLow _⟩

/-- Settles O52: the angle's clamp is monotone, and the interpolation runs as the endpoints do. -/
theorem angleMappingMonotone : Obligations.AngleMappingMonotone := by
  unfold Obligations.AngleMappingMonotone
  intro s a b hab
  have hclamped : clampedAngle a ≤ clampedAngle b := clamp_mono hab (by decide)
  obtain ⟨ha, ha'⟩ := clampedAngle_mem a
  obtain ⟨hb, hb'⟩ := clampedAngle_mem b
  have hmono := interp_monoAlong s.cal0 s.cal180 s.params.interpArith
  refine ⟨s.angleWord a, s.angleWord b, _, _, exec_wrAngle a s, exec_wrAngle b s, rfl, rfl, fun hup => ?_,
    fun hdown => ?_⟩
  · have hle := hmono ha ha' hb hb' (mul_le_mul_of_nonneg_left hclamped (by omega))
    rw [← State.toNat_angleWord, ← State.toNat_angleWord] at hle
    exact_mod_cast hle
  · have hle := hmono hb hb' ha ha' (mul_le_mul_of_nonpos_left hclamped (by omega))
    rw [← State.toNat_angleWord, ← State.toNat_angleWord] at hle
    exact_mod_cast hle

/-- Settles O53: at the angle 90 the fraction is one half exactly, so only the conversion to an integer rounds. -/
theorem middleAngleLoadsMidpoint : Obligations.MiddleAngleLoadsMidpoint := by
  unfold Obligations.MiddleAngleLoadsMidpoint
  intro s
  refine ⟨s.angleWord 90, _, exec_wrAngle 90 s, rfl, ?_⟩
  have hvalue := s.toNat_angleWord 90
  rw [show clampedAngle 90 = 90 by decide, interp_ninety] at hvalue
  exact_mod_cast hvalue

/-- Settles O17: the two fields are the halves of the word that `RD CMP` returns. -/
theorem readCompareGivesFields : Obligations.ReadCompareGivesFields := by
  unfold Obligations.ReadCompareGivesFields
  intro s data
  have hview (v : Half) : (v.setWidth 32).toNat = v.toNat := BitVec.toNat_setWidth_of_le (by decide)
  exact ⟨decode_read .cmp data, decode_read .cmplo data, decode_read .cmphi data, _, _, _, exec_rd .cmp s,
    exec_rd .cmplo s, exec_rd .cmphi s, toNat_append_halves _ _, hview _, hview _⟩

/-- Settles O18: the view of an endpoint's register is the endpoint. -/
theorem readEndpointsGiveCalibration : Obligations.ReadEndpointsGiveCalibration :=
  fun s data => ⟨decode_read .cal0 data, decode_read .cal180 data, exec_rd .cal0 s, exec_rd .cal180 s⟩

/-- Settles O21: a write to an endpoint is no load. -/
theorem writeEndpointsStoresWithoutReload : Obligations.WriteEndpointsStoresWithoutReload :=
  fun s data => ⟨decode_wrInput .cal0 data, decode_wrInput .cal180 data, exec_wrCal0 data s, exec_wrCal180 data s⟩

/-- Settles O22: `WR CMP` is the load of DATA itself. -/
theorem writeCompareLoadsBothFields : Obligations.WriteCompareLoadsBothFields :=
  fun s data => ⟨decode_wrInput .cmp data, exec_wrCmp data s⟩

/-- Settles O23: the word loaded is the target, which both clamps keep in range. -/
theorem angleWriteLoadsTarget : Obligations.AngleWriteLoadsTarget := by
  unfold Obligations.AngleWriteLoadsTarget
  intro s data
  refine ⟨decode_wrInput .angle data, s.angleWord data, exec_wrAngle data s, ?_⟩
  have htarget := toNat_ofInt_angleTarget s.params.interpArith s.cal0 s.cal180 data
  unfold State.angleWord
  cases harith : s.params.interpArith with
  | exact | double =>
    rw [harith] at htarget
    exact htarget

/-- Settles O50: DATA acts through the clamped angle alone. -/
theorem angleClampedToRange : Obligations.AngleClampedToRange := by
  unfold Obligations.AngleClampedToRange
  intro s data
  have hsame {a : Word} (h : clampedAngle data = clampedAngle a) :
      exec (.wrAngle a) s = .next (s.load (s.angleWord data)) := by
    rw [exec_wrAngle, s.angleWord_congr h]
  exact ⟨_, exec_wrAngle data s, fun hneg => hsame (clampedAngle_of_neg hneg),
    fun hgt => hsame (clampedAngle_of_gt hgt)⟩

end Sys2Proof.Machine

/-! # Exceptions and outcomes: completion, the refusal mark, the reset, and an edge that coincides with a tick -/

namespace Sys2Proof

/-- The one descriptor of class RST, whatever DATA stands beside it (R87, R88). -/
theorem decode_rst (data : Word) : decode ⟨descriptor 0b11#2 0#2 0x00#8, data⟩ = .instr .reset := by
  rw [decode_of_rst (by simp) (by simp), decodeRst_eq_instr_iff]
  simp

end Sys2Proof

namespace Sys2Proof.Machine

section

variable {s t : State} {i : Input} {r : RunRecord} {why : Refusal}

/-! ## Completion -/

/-- Every arm of `exec` answers a next state (R204). -/
theorem exec_completes (i : Instr) (s : State) : ∃ t, exec i s = .next t := by
  cases i <;> exact ⟨_, rfl⟩

theorem present_ne_fault (i : Input) (s : State) (f : Fault) : present i s ≠ .fault f := by
  rcases RunRecord.present_cases ⟨s, none⟩ i with ⟨t, hp, -⟩ | ⟨why, hp, -⟩
  · simp [hp]
  · simp [hp]

/-! ## The refusal mark -/

/-- Only a descriptor that spells no input is refused, and for the decoder's reason (R92, R202). -/
theorem malformed_of_refused (h : present i s = .refused why) :
    ∃ m, decode i = .malformed m ∧ why = refusalOf m := by
  rcases present_cases i s with ⟨j, -, hp⟩ | ⟨isRead, e, -, hp⟩ | ⟨m, hd, hp⟩
  · obtain ⟨t, ht⟩ := exec_completes j s
    cases h.symm.trans (hp.trans ht)
  · cases h.symm.trans hp
  · exact ⟨m, hd, Host.Outcome.refused.inj (h.symm.trans hp)⟩

theorem refusalOf_eq (m : Malformed) : refusalOf m = .reservedBits ∨ refusalOf m = .unknownEvent := by
  cases m with
  | reservedBits => exact .inl rfl
  | unknownEvent => exact .inr rfl

namespace RunRecord

theorem present_of_refused (h : Machine.present i r.state = .refused why) :
    r.present i = ⟨r.state.respond .quiet, r.mark.or (some why)⟩ := by
  simp only [RunRecord.present, h]

/-- A refusal leaves the run marked, with its own reason only where no earlier one is held. -/
theorem exists_mark_of_refused (h : Machine.present i r.state = .refused why) :
    ∃ first, (r.present i).mark = some first := by
  rw [present_of_refused h]
  cases r.mark with
  | none => exact ⟨why, rfl⟩
  | some first => exact ⟨first, rfl⟩

theorem mark_present_of_some (h : r.mark = some why) (i : Input) : (r.present i).mark = some why := by
  rcases r.present_cases i with ⟨t, -, hr⟩ | ⟨later, -, hr⟩ <;> rw [hr]
  · exact h
  · rw [h, Option.some_or]

/-- A mark once set stays set along a run (R202), by induction on the inputs. -/
theorem mark_presentAll_of_some (l : List Input) (h : r.mark = some why) : (r.presentAll l).mark = some why := by
  induction l generalizing r with
  | nil => exact h
  | cons i l ih => exact ih (mark_present_of_some h i)

end RunRecord

/-! ## An edge and a tick -/

theorem present_tick (s : State) :
    present (encode .tick) s = .next (s.countTick.advanceSequencer.respond .quiet) :=
  present_of_instr (decode_encode .tick) s

/-- Armed, in IDLE and with the line low, `RISE` latches the counter as the start (R121, R124). -/
theorem present_rise_of_idle (harmed : s.armed = true) (hidle : s.pulse = .idle) (hline : s.envLvl = false) :
    present (encode .rise) s = .next (({ s with
      envLvl := true, tstart := s.cnt.setWidth 32, pulse := .rising } : State).respond .quiet) := by
  rw [present_of_instr (decode_encode .rise)]
  exact exec_rise_of_edge (State.edge_rising_of_idle hline harmed hidle)

/-- The edge first latches the older count, and the tick after it leaves the latch (R206). -/
theorem presentAll_rise_tick (harmed : s.armed = true) (hidle : s.pulse = .idle) (hline : s.envLvl = false) :
    ∃ t, presentAll [encode .rise, encode .tick] s = .next t ∧
      t.tstart = s.cnt.setWidth 32 ∧ t.cnt = s.cnt - 1#24 ∧ t.pulse = .rising := by
  refine ⟨_, (presentAll_cons_of_next (present_rise_of_idle harmed hidle hline) _).trans
    (presentAll_cons_of_next (present_tick _) []), ?_⟩
  simp [State.advanceSequencer_keeps, countDown_eq]

/-- The tick first keeps capture armed in IDLE, so the edge after it latches the newer count (R206). -/
theorem presentAll_tick_rise (harmed : s.armed = true) (hidle : s.pulse = .idle) (hline : s.envLvl = false) :
    ∃ t, presentAll [encode .tick, encode .rise] s = .next t ∧
      t.tstart = (s.cnt - 1#24).setWidth 32 ∧ t.cnt = s.cnt - 1#24 ∧ t.pulse = .rising := by
  obtain ⟨hcnt, hpulse, -, -, henv, -, hstill⟩ := s.countTick.advanceSequencer_keeps
  have hrise := present_rise_of_idle (s := s.countTick.advanceSequencer.respond .quiet)
    (hstill harmed) (hpulse.trans hidle) (henv.trans hline)
  refine ⟨_, (presentAll_cons_of_next (present_tick s) _).trans (presentAll_cons_of_next hrise []), ?_⟩
  simp [hcnt, countDown_eq]

end

/-! ## The obligations -/

/-- Settles O7: a refusal leaves the run marked, and no further input changes a mark that is set. -/
theorem refusalMarkStays : Obligations.RefusalMarkStays := by
  unfold Obligations.RefusalMarkStays
  intro r i why h
  have hpresent := RunRecord.present_of_refused h
  obtain ⟨m, -, rfl⟩ := malformed_of_refused h
  refine ⟨refusalOf_eq m, by rw [hpresent]; rfl, fun hnone => by rw [hpresent, hnone]; rfl, fun l => ?_⟩
  obtain ⟨first, hfirst⟩ := RunRecord.exists_mark_of_refused h
  have hlast := RunRecord.mark_presentAll_of_some l hfirst
  exact ⟨by rw [RunRecord.clean, hlast]; rfl, hlast.trans hfirst.symm⟩

/-- Settles O11: no arm faults or is refused, and an input that spells none answers an error or a refusal. -/
theorem everyInputCompletes : Obligations.EveryInputCompletes := ⟨exec_completes, present_ne_fault⟩

/-- Settles O28: the reset is the power-on record with the line, the parameters and the pending inputs kept. -/
theorem resetRestoresResetValues : Obligations.ResetRestoresResetValues := fun _ data => ⟨decode_rst data, rfl⟩

/-- Settles O46: each order latches the count its edge meets, and both take one count down. -/
theorem edgeAndTickInEitherOrder : Obligations.EdgeAndTickInEitherOrder := by
  unfold Obligations.EdgeAndTickInEitherOrder
  intro s harmed hidle hline
  obtain ⟨t, ht, htstart, htcnt, htpulse⟩ := presentAll_rise_tick harmed hidle hline
  obtain ⟨u, hu, hustart, hucnt, hupulse⟩ := presentAll_tick_rise harmed hidle hline
  exact ⟨t, u, ht, hu, htstart, hustart, htcnt.trans hucnt.symm, htpulse, hupulse⟩

end Sys2Proof.Machine
